-- ==== Sys2Proof/Word.lean ====
section
/-! DEFINITION. The data items of steel CORE: bytes, raw counts and exact fractions (spec/00_scope.md R8). -/

namespace Sys2Proof

/-- A byte: an unsigned 8-bit value, bit 0 least significant (R8). -/
abbrev Byte := BitVec 8

/-- One calibration ROM word: `CAL_W` = 24 bits, the resistance times 10000 (R51). -/
abbrev RomWord := BitVec 24

/-- An exact number, written as a numerator over a denominator (R8: "exact rationals", "no rule of this spec rounds").
The pair stands for `num / den`; a pair whose `den` is 0 stands for no number, and is how the model writes the
operand "not a finite number" that R182 names (notes/assumptions/9.md). Two pairs may stand for one number:
`Frac.toRat` says which. -/
structure Frac where
  num : Int
  den : Nat
  deriving DecidableEq, Repr

namespace Frac

/-- The rational number a pair stands for; statements compare engineering values through it. -/
def toRat (a : Frac) : Rat := (a.num : Rat) / (a.den : Rat)

/-- The pair stands for a number. -/
def isNumber (a : Frac) : Bool := a.den != 0

end Frac

end Sys2Proof
end

