-- ==== Sys2Proof/Config.lean ====
section
/-! DEFINITION. What one instance of the block fixes: the constants of spec/00_scope.md R6, the open ROM parameters of R7,
and the free values of spec/93_implementation_defined.md U7, U11 and U12. -/

namespace Sys2Proof.Config

/-- `ESC_CODE` (R6). -/
def escCode : Byte := 0x08#8
/-- `SOF_CODE` (R6). -/
def sofCode : Byte := 0x0D#8
/-- `EOF_CODE` (R6). -/
def eofCode : Byte := 0x0A#8
/-- `FRAME_LEN` (R6): the data bytes of a complete frame. -/
def frameLen : Nat := 18
/-- `LEN_SAT` (R21): the value at which the length counter saturates. -/
def lenSat : Nat := 19
/-- `T_OFFSET` (R6): ROM index `i` stands for `i - 200` degrees. -/
def tOffset : Int := 200
/-- `TEMP_DIV` (R6): temperature counts per degree. -/
def tempDiv : Nat := 10000
/-- `RTD_NUM` (R6). -/
def rtdNum : Nat := 400
/-- `RTD_DEN` (R6). -/
def rtdDen : Nat := 32768
/-- `BATT_DIV` (R6): battery counts per volt. -/
def battDiv : Nat := 1000
/-- `BATT_MIN`, in volts (R6). -/
def battMin : Frac := ⟨0, 1⟩
/-- `BATT_MAX`, in volts (R6). -/
def battMax : Frac := ⟨10, 1⟩
/-- `TEMP_ADV_MIN`, in degrees (R6). -/
def tempAdvMin : Frac := ⟨-100, 1⟩
/-- `TEMP_ADV_MAX`, in degrees (R6). -/
def tempAdvMax : Frac := ⟨100, 1⟩
/-- ROM words per ohm: `W[i] = CAL[i] * 10000` (R51). -/
def romDiv : Nat := 10000
/-- The fixed-point denominator of `res_q` (R91): `rtd_resistance = res_q / 2048`. -/
def resDiv : Nat := 2048
/-- `res_q = 25 * rtd_raw` (R91). -/
def resMul : Nat := 25

/-- The upper bound of the parameter `N_CAL` (00_scope.md, parameter table). -/
def nCalMax : Nat := 32768

/-- `N_CAL` (R7): the number of ROM entries of this instance, 0 to 32768; the source does not give it. -/
opaque nCal : Fin 32769

/-- `CAL` as ROM words `W[i]` (R7, R51); the source does not give the contents. -/
opaque calWord : Nat → RomWord

/-- The ROM image of this instance: `N_CAL` words, nothing assumed of them (R7, R189). -/
def romImage : List RomWord := (List.range nCal.val).map calWord

/-- The ports and internal signals whose value the spec leaves unspecified at some edges. -/
inductive PortName where
  | outStatus | outAdv | outTemp | outDev | outRtdRes | outRtdTemp | outTc | outBatt | outRaw
  | pktLen | pktBytes | calR | calErr | calT
  deriving DecidableEq, Repr

/-- The FREE VALUE of a port that holds "any value" (U7, U11, U12): a function of the port and of the model's
step counter, with no body (notes/assumptions/5.md). -/
opaque freeBits (p : PortName) (tick width : Nat) : BitVec width

end Sys2Proof.Config
end

