-- ==== Sys2Proof/Syntax.lean ====
section
/-! DEFINITION. The operations of steel CORE (spec/opcode_table.json; spec/30_encoding.md R80) and what selects them:
input-port samples, input events, and the values on the internal interfaces. -/

namespace Sys2Proof

/-- The arguments of the pseudo-instruction FRAME (R102), each at the width its bound gives. -/
structure FrameArgs where
  temp : BitVec 32
  dev  : Vector Byte 4
  rtd  : BitVec 16
  tc   : BitVec 16
  batt : BitVec 16
  r0   : Byte
  r5   : Byte
  r6   : Byte
  r17  : Byte
  deriving DecidableEq, Repr

/-- One constructor per row of spec/opcode_table.json. -/
inductive Instr where
  /-- CLR, the reset request (R128). -/
  | clr
  /-- IDLE, no byte accepted (R121). -/
  | idle
  /-- LIT, any byte in state Escaped (R126). -/
  | lit (b : Byte)
  /-- ESC, byte 0x08 in state Normal (R122). -/
  | esc
  /-- SOF, byte 0x0D in state Normal (R123). -/
  | sof
  /-- EOF, byte 0x0A in state Normal (R124). -/
  | eof
  /-- DATA, any other byte in state Normal (R125). -/
  | data (b : Byte)
  /-- PARSE of a packet: absent, or a sequence of bytes of any length (R151). -/
  | parse (pkt : Option (List Byte))
  /-- LOOKUP of a resistance in ohms, any number (R180). -/
  | lookup (r : Frac)
  /-- VALIDATE of a candidate reading: the two parts of it that R200 reads, its battery voltage and the length of its raw packet. -/
  | validate (batteryVoltage : Frac) (packetLen : Nat)
  /-- FRAME, the transmitter's pseudo-instruction (R102). -/
  | frame (f : FrameArgs)
  deriving DecidableEq, Repr

/-- The input ports at one rising edge of `clk` (R221). `stall` is no port: it says that the implementation has not
yet completed the parse it began (R222, R310), the one timing an implementation is free in (notes/assumptions/7.md). -/
structure InPorts where
  rst     : Bool
  clr     : Bool
  inValid : Bool
  inByte  : Byte
  stall   : Bool
  deriving DecidableEq, Repr

/-- An input event (R220). -/
inductive Event where
  | idle
  | byte (b : Byte)
  | clr
  deriving DecidableEq, Repr

/-- What stands at the interface that selects an operation: the encoding of an `Instr`. -/
inductive Stimulus where
  /-- The block's boundary: `esc` and the input event (R80, R84). -/
  | boundary (esc : Bool) (ev : Event)
  /-- The FRM to PAR interface: `pkt_len` and `pkt_bytes` (R232). -/
  | parBus (pktLen : BitVec 5) (pktBytes : BitVec 144)
  /-- The PAR to CAL interface: `cal_r`, which is `res_q` (R232). -/
  | calBus (calR : BitVec 21)
  /-- VAL's operands: `batt_raw` and the packet length (R201; the table's VALIDATE row). No interface of R232: DESIGN CHOICE
  (notes/assumptions/13.md). -/
  | valBus (battRaw : BitVec 16) (packetLen : BitVec 5)
  /-- The transmitter's byte stream (R102). -/
  | wire (stream : List Byte)
  deriving DecidableEq, Repr

end Sys2Proof
end

