-- ==== Sys2Proof/WellFormed.lean ====
section
/-! DEFINITION. Which operations have an encoding at their interface. An operation that is not well formed still has its
meaning (the model-level operands of R151, R180 and R200); no hardware interface can carry it. -/

namespace Sys2Proof

/-- One of the three control codes (R82). -/
def isControl (b : Byte) : Bool := b == Config.escCode || b == Config.sofCode || b == Config.eofCode

namespace Instr

/-- A DATA byte is one of the 253 values that are no control code (R82, R125). -/
def wfData (b : Byte) : Bool := !isControl b

/-- The FRM to PAR interface carries at most 18 bytes and cannot say "absent" (R152, R232). -/
def wfPacket : Option (List Byte) → Bool
  | none => false
  | some bytes => bytes.length ≤ Config.frameLen

/-- `cal_r` carries `res_q`, 21 bits, in units of 1/2048 ohm (R91, R232). -/
def wfResistance (r : Frac) : Bool := r.den == Config.resDiv && 0 ≤ r.num && r.num < 2 ^ 21

/-- VAL gets `batt_raw`, 16 bits, in units of 1/1000 V, and the 5-bit packet length (R93, R201, R232). -/
def wfCandidate (v : Frac) (n : Nat) : Bool := v.den == Config.battDiv && 0 ≤ v.num && v.num < 2 ^ 16 && n < 2 ^ 5

/-- The operation has an encoding. -/
def wf : Instr → Bool
  | .clr => true
  | .idle => true
  | .lit _ => true
  | .esc => true
  | .sof => true
  | .eof => true
  | .data b => wfData b
  | .parse pkt => wfPacket pkt
  | .lookup r => wfResistance r
  | .validate v n => wfCandidate v n
  | .frame _ => true

end Instr

end Sys2Proof
end

