-- ==== Sys2Proof/Decode.lean ====
section
/-! DEFINITION. Selecting an operation (spec/30_encoding.md R80 to R86), reading the fields of a packet (R54, R88), the
transmitter's encoding (R101, R102), and, after the decoder, the encoder. -/

namespace Sys2Proof

/-- Why a transmitter's stream is not the expansion of a FRAME. The block itself refuses no byte (R85). -/
inductive DecodeError where
  /-- The stream does not begin with 0x0D. -/
  | noFrameStart
  /-- The stream ends before an unescaped 0x0A. -/
  | noFrameEnd
  /-- An unescaped 0x0D stands among the data bytes. -/
  | frameStartInBody
  /-- Bytes follow the unescaped 0x0A. -/
  | bytesAfterFrameEnd
  /-- The number of data bytes is not 18. -/
  | wrongDataCount
  deriving DecidableEq, Repr

/-! ### The block's own decoder -/

/-- The operation a byte selects (R82, R83; the `esc` test comes before the value test, R84). -/
def selectByte (esc : Bool) (b : Byte) : Instr :=
  if esc then .lit b
  else if b == Config.escCode then .esc
  else if b == Config.sofCode then .sof
  else if b == Config.eofCode then .eof
  else .data b

/-- The operation an input event selects (R84, R120). -/
def select (esc : Bool) : Event → Instr
  | .clr => .clr
  | .idle => .idle
  | .byte b => selectByte esc b

/-! ### Fields of a packet -/

/-- The little-endian raw count of a byte sequence (R54). -/
def leCount : List Byte → Nat
  | [] => 0
  | b :: bs => b.toNat + 256 * leCount bs

/-- `F(o, n)`: the raw count of the `n` bytes at offset `o` (R54, R151). -/
def fieldCount (bytes : List Byte) (o n : Nat) : Nat := leCount ((bytes.drop o).take n)

/-- The byte at a packet offset; an offset that the packet lacks is read by no operation (0 there). -/
def byteAt (bytes : List Byte) (o : Nat) : Byte := bytes.getD o 0#8

/-- The four `device_id` components, offsets 7 to 10 (R56, R90). -/
def devBytes (bytes : List Byte) : Vector Byte 4 :=
  #v[byteAt bytes 7, byteAt bytes 8, byteAt bytes 9, byteAt bytes 10]

/-- The arguments whose `Encode` is the 18-byte packet (R88, R102). -/
def frameArgsOf (bytes : List Byte) : FrameArgs :=
  { temp := BitVec.ofNat 32 (fieldCount bytes 1 4)
    dev := devBytes bytes
    rtd := BitVec.ofNat 16 (fieldCount bytes 11 2)
    tc := BitVec.ofNat 16 (fieldCount bytes 13 2)
    batt := BitVec.ofNat 16 (fieldCount bytes 15 2)
    r0 := byteAt bytes 0
    r5 := byteAt bytes 5
    r6 := byteAt bytes 6
    r17 := byteAt bytes 17 }

/-! ### The internal interfaces and the transmitter's stream -/

/-- Byte `k` of a packed bus: bits `8k+7 : 8k` (R225, R232). -/
def busByte (bytes : BitVec 144) (k : Nat) : Byte := bytes.extractLsb' (8 * k) 8

/-- The packet the FRM to PAR interface carries: `pkt_len` bytes of the bus. The bus holds 18 bytes; a length above 18
selects the InvalidLength arm of PARSE whatever the bytes are (R152). -/
def busPacket (n : BitVec 5) (bytes : BitVec 144) : List Byte := (List.range n.toNat).map (busByte bytes)

/-- The data bytes of a stream after its 0x0D, up to its unescaped 0x0A, which must be the last byte (R86, R87). -/
def unstuff : Bool → List Byte → Except DecodeError (List Byte)
  | _, [] => .error .noFrameEnd
  | true, b :: bs => (unstuff false bs).map (b :: ·)
  | false, b :: bs =>
    if b == Config.escCode then unstuff true bs
    else if b == Config.sofCode then .error .frameStartInBody
    else if b == Config.eofCode then
      match bs with
      | [] => .ok []
      | _ :: _ => .error .bytesAfterFrameEnd
    else (unstuff false bs).map (b :: ·)

/-- The FRAME whose expansion the stream is (R87, R102), a needless escape allowed (R86). -/
def decodeFrame : List Byte → Except DecodeError FrameArgs
  | [] => .error .noFrameStart
  | b :: bs =>
    if b == Config.sofCode then
      match unstuff false bs with
      | .error e => .error e
      | .ok body => if body.length = Config.frameLen then .ok (frameArgsOf body) else .error .wrongDataCount
    else .error .noFrameStart

/-- The operation that stands at an interface. Only the transmitter's stream can be refused (R85). That the values on the
internal interfaces serve PARSE, LOOKUP and VALIDATE as encodings is a DESIGN CHOICE (notes/assumptions/13.md). -/
def decode : Stimulus → Except DecodeError Instr
  | .boundary esc ev => .ok (select esc ev)
  | .parBus n bytes => .ok (.parse (some (busPacket n bytes)))
  | .calBus q => .ok (.lookup ⟨q.toNat, Config.resDiv⟩)
  | .valBus raw n => .ok (.validate ⟨raw.toNat, Config.battDiv⟩ n.toNat)
  | .wire stream => (decodeFrame stream).map .frame

/-! ### The encoder -/

/-- Byte `k` of a value, least significant first (R54). -/
def leByte {w : Nat} (v : BitVec w) (k : Nat) : Byte := v.extractLsb' (8 * k) 8

/-- `Encode` (R102): the 18 bytes of a packet, the inverse of the layout R88. -/
def encodePacket (f : FrameArgs) : List Byte :=
  [f.r0, leByte f.temp 0, leByte f.temp 1, leByte f.temp 2, leByte f.temp 3, f.r5, f.r6,
    f.dev[0], f.dev[1], f.dev[2], f.dev[3], leByte f.rtd 0, leByte f.rtd 1, leByte f.tc 0, leByte f.tc 1,
    leByte f.batt 0, leByte f.batt 1, f.r17]

/-- `Stuff(b)` (R101). -/
def stuff (b : Byte) : List Byte := if isControl b then [Config.escCode, b] else [b]

/-- `Stuff` of a byte sequence (R101). -/
def stuffAll : List Byte → List Byte
  | [] => []
  | b :: bs => stuff b ++ stuffAll bs

/-- The stream FRAME expands to (R102). -/
def frameStream (f : FrameArgs) : List Byte := Config.sofCode :: (stuffAll (encodePacket f) ++ [Config.eofCode])

/-- The bytes packed on a bus, byte `k` in bits `8k+7 : 8k` (R225, R232). -/
def packBytes (w : Nat) : List Byte → BitVec w
  | [] => 0#w
  | b :: bs => b.setWidth w ||| (packBytes w bs <<< 8)

/-- What stands at the interface of a well-formed operation. -/
def encode : Instr → Stimulus
  | .clr => .boundary false .clr
  | .idle => .boundary false .idle
  | .lit b => .boundary true (.byte b)
  | .esc => .boundary false (.byte Config.escCode)
  | .sof => .boundary false (.byte Config.sofCode)
  | .eof => .boundary false (.byte Config.eofCode)
  | .data b => .boundary false (.byte b)
  | .parse pkt => .parBus (BitVec.ofNat 5 (pkt.getD []).length) (packBytes 144 (pkt.getD []))
  | .lookup r => .calBus (BitVec.ofInt 21 r.num)
  | .validate v n => .valBus (BitVec.ofInt 16 v.num) (BitVec.ofNat 5 n)
  | .frame f => .wire (frameStream f)

/-! ### Table words

The table gives a byte row 8 bits (`in_byte`) and says beside them the value of `esc` and of the other ports. The model
numbers those on from bit 8, so that every row with an input event has a word (notes/assumptions/10.md): bit 8 `esc`,
bit 9 no byte presented, bit 10 `clr`, bit 11 `rst`. An 8-bit word is a byte presented in state Normal. -/

/-- The input ports of a table word. -/
def wordPorts (w : Nat) : InPorts :=
  { rst := w.testBit 11, clr := w.testBit 10, inValid := !w.testBit 9, inByte := BitVec.ofNat 8 w, stall := false }

/-- The `esc` of a table word. -/
def wordEsc (w : Nat) : Bool := w.testBit 8

/-- The input event of a table word, by the priorities of R84. -/
def wordEvent (w : Nat) : Event :=
  if w.testBit 11 || w.testBit 10 then .clr
  else if w.testBit 9 then .idle
  else .byte (BitVec.ofNat 8 w)

/-- The operation the decoder reads from a table word; no operation has a word with a bit above bit 11. -/
def decodeTableWord (nbits w : Nat) : Option Instr :=
  if nbits = 0 ∨ 2 ^ 12 ≤ w ∨ 2 ^ nbits ≤ w then none
  else (decode (.boundary (wordEsc w) (wordEvent w))).toOption

end Sys2Proof
end

