-- ==== Sys2Proof/Machine/State.lean ====
section
/-! DEFINITION. The state of steel CORE as plain data (spec/10_state.md), the values on its output and internal interfaces
(spec/45_pipeline.md), the reasons a step can stop, and the reset state (spec/70_reset_and_hazards.md R290). -/

namespace Sys2Proof.Machine

/-- The three parse-level errors (R250, R256). -/
inductive ParseError where
  | invalidLength
  | invalidSensorValue
  | invalidSensorData
  deriving DecidableEq, Repr

/-- The result of LOOKUP (R180); `LookupError` has the one kind `InvalidInput` (R255). -/
inductive LookupResult where
  | ok (t : Int)
  | invalidInput
  deriving DecidableEq, Repr

/-- The advisory flags `adv` (R164). -/
structure Adv where
  tempAdv : Bool
  battAdv : Bool
  calMiss : Bool
  deriving DecidableEq, Repr

/-- A SensorReading in the integer forms of this spec (R150). -/
structure Reading where
  tempRaw        : BitVec 32
  dev            : Vector Byte 4
  resQ           : BitVec 21
  rtdTemperature : Int
  tcRaw          : BitVec 16
  battRaw        : BitVec 16
  rawPacket      : List Byte
  deriving DecidableEq, Repr

/-- What PARSE answers (R151). -/
inductive ParseResult where
  | ok (r : Reading)
  | err (e : ParseError)
  deriving DecidableEq, Repr

/-- The output event of a step (R220, R224); `nothing` is the spec's `None`. -/
inductive OutEvent where
  | nothing
  | discard
  | result (r : ParseResult) (adv : Adv)
  deriving DecidableEq, Repr

/-- The pulse on the FRM to PAR interface (R232). -/
structure PktPulse where
  pktLen   : BitVec 5
  pktBytes : BitVec 144
  deriving DecidableEq, Repr

/-- What the last operation put on the block's interfaces: the output event, and the pulses between the sub-blocks.
None of it is held: every operation writes all of it anew (R227). -/
structure Signals where
  /-- FRM to PAR (R232). -/
  pkt     : Option PktPulse
  /-- PAR to CAL: `cal_r` of the request (R232). -/
  calReq  : Option (BitVec 21)
  /-- CAL to PAR: the LOOKUP result (R232). -/
  calRsp  : Option LookupResult
  /-- VALIDATE's answer, valid or invalid (R200). -/
  verdict : Option Bool
  /-- The output event (R224). -/
  out     : OutEvent
  deriving DecidableEq, Repr

/-- No pulse and no output event. -/
def Signals.quiet : Signals := ⟨none, none, none, none, .nothing⟩

/-- The machine. `esc`, `len` and `buf` are the block's whole state (R20 to R22, R29); `rom` is the step function's
parameter (R10, R28), carried here because a step takes the state alone and never written (notes/assumptions/1.md);
the other fields are the model's own: the host's side of the interfaces and the counter of the free values. -/
structure State where
  /-- The escape flag, 1 bit (R20): false is `Normal`, true is `Escaped`. -/
  esc        : Bool
  /-- The length counter, 5 bits, 0 to 19 (R21). -/
  len        : BitVec 5
  /-- `BUF[0..17]`, eighteen 8-bit registers (R22). -/
  buf        : Vector Byte 18
  /-- The calibration ROM words `W[0..N_CAL-1]` (R28, R51). -/
  rom        : List RomWord
  /-- The input-port samples still to come, the next edge first (R221, R222). -/
  inq        : List InPorts
  /-- The last accepted byte was an EOF that invoked PARSE, so `in_ready` may still be 0 (R222). -/
  completing : Bool
  /-- The signals of the last operation (R224, R232). -/
  sig        : Signals
  /-- The number of edges taken; the free values are functions of it (notes/assumptions/5.md). -/
  tick       : Nat
  deriving DecidableEq, Repr

/-- The machine right after reset (R31, R290). `buf` is unspecified there: the model's value is 0 (notes/assumptions/2.md).
The ROM is the instance's, of which nothing is known (R7); no input waits and nothing is presented. -/
def State.reset : State :=
  { esc := false
    len := 0#5
    buf := Vector.replicate 18 0#8
    rom := Config.romImage
    inq := []
    completing := false
    sig := Signals.quiet
    tick := 0 }

/-- There is no fault: a step is "deterministic, never stuck, never faulting" (R220), and the block has no "faulted state" (R262). -/
inductive Fault where
  deriving DecidableEq, Repr

/-- Why a step has no next state. -/
inductive Refusal where
  /-- Raised by `exec` alone, for an operation without a meaning; no arm raises it in this model. Safe. -/
  | notModelled (mnemonic : String)
  /-- Raised by `step` alone, in a state that only a block never reset can be in (`len` above 19), for an event other than
  a reset request: "the behaviour of the block is not defined by this spec" (R291, U10). Safe. -/
  | undefinedBeforeReset
  deriving DecidableEq, Repr

/-- The three outcomes of a step of this machine. -/
abbrev Result := Host.Outcome State Fault Refusal

end Sys2Proof.Machine
end

