-- ==== Sys2Proof/Machine/Ops.lean ====
section
/-! DEFINITION. The named operations over the state: the two registers of the framer, the frame buffer, the ROM, what an
operation presents on the interfaces, and ending an operation with an error. -/

namespace Sys2Proof.Machine

/-! ### `esc` and `len` -/

/-- `esc <- v`. -/
def State.setEsc (v : Bool) (s : State) : State := { s with esc := v }

/-- `len <- n`. -/
def State.setLen (n : BitVec 5) (s : State) : State := { s with len := n }

/-- Note that a parse began, after which `in_ready` may be 0 for a while (R222). -/
def State.beginParse (s : State) : State := { s with completing := true }

/-! ### The frame buffer (R50) -/

/-- `BUF[k]`. -/
def State.readBuf (s : State) (k : Fin 18) : Byte := s.buf[k]

/-- `x[k] <- b`. -/
def State.writeBuf (k : Fin 18) (b : Byte) (s : State) : State := { s with buf := s.buf.set k b }

/-- All 18 bytes in offset order: the RawPacket (R50, R124). -/
def State.packet (s : State) : List Byte := s.buf.toList

/-- The offset APPEND stores at: `len`, where it is below 18 (R127). -/
def State.appendIndex (s : State) : Option (Fin 18) :=
  if h : s.len.toNat < 18 then some ⟨s.len.toNat, h⟩ else none

/-- APPEND (R127): store at offset `len` and count, or, with 18 bytes already there, count only, saturating at 19. -/
def State.append (b : Byte) (s : State) : State :=
  match s.appendIndex with
  | some k => (s.writeBuf k b).setLen (s.len + 1)
  | none => s.setLen (BitVec.ofNat 5 Config.lenSat)

/-! ### The calibration ROM (R51) -/

/-- `CAL[i] = W[i] / 10000` ohms. -/
def ohms (w : RomWord) : Frac := ⟨w.toNat, Config.romDiv⟩

/-- `MemRead(CAL, i, 1)`; there is no entry at `N_CAL` or above. -/
def State.readRom (s : State) (i : Nat) : Option Frac := s.rom[i]?.map ohms

/-! ### What an operation presents -/

/-- Put an operation's signals on the interfaces, in place of the last operation's (R227). -/
def State.present (sg : Signals) (s : State) : State := { s with sig := sg }

/-- An operation that emits nothing: the output event is `None`. -/
def State.quiet (s : State) : State := s.present Signals.quiet

/-- `emit Discard` (R124, R251): the warning strobe, which carries nothing. -/
def State.emitDiscard (s : State) : State := s.present { Signals.quiet with out := .discard }

/-- The input sample that brings one byte of a stream (R223). -/
def bytePorts (b : Byte) : InPorts := { rst := false, clr := false, inValid := true, inByte := b, stall := false }

/-- Put samples before those that wait at the input. -/
def State.enqueue (ps : List InPorts) (s : State) : State := { s with inq := ps ++ s.inq }

/-! ### Ending PARSE (R151, R164, R260) -/

/-- What the steps of PARSE have set so far: the advisory flags and the internal signals. -/
structure Progress where
  adv     : Adv
  calReq  : Option (BitVec 21)
  calRsp  : Option LookupResult
  verdict : Option Bool
  deriving DecidableEq, Repr

/-- Before step 1: all three advisory flags are 0 (R151). -/
def Progress.start : Progress := ⟨⟨false, false, false⟩, none, none, none⟩

/-- What PARSE presents when it ends with `r`; it emits exactly one output event. -/
def Progress.finish (p : Progress) (r : ParseResult) : Signals :=
  { pkt := none, calReq := p.calReq, calRsp := p.calRsp, verdict := p.verdict, out := .result r p.adv }

/-- `raise E`: the block's one way of taking an error. "`emit Result(Err E, adv)`, `adv` holding the flag values set so
far" (R151); it "changes no state, saves nothing, switches no mode and transfers no control" (R260), and there is no
return from it (R261). -/
def raiseError (e : ParseError) (p : Progress) : Signals := p.finish (.err e)

/-- `emit Result(Ok reading, adv)` (R151). -/
def deliver (r : Reading) (p : Progress) : Signals := p.finish (.ok r)

end Sys2Proof.Machine
end

