-- ==== Sys2Proof/Machine/Operands.lean ====
section
/-! DEFINITION. Exact comparison, the fields of a packet at their widths and scales (spec/30_encoding.md R88 to R96), the
engineering values of a reading (R150), and the text of a device id (R163). -/

namespace Sys2Proof

/-- `a < b` on exact numbers (both denominators positive). -/
def Frac.less (a b : Frac) : Bool := a.num * b.den < b.num * a.den

/-- `a <= b` on exact numbers (both denominators positive). -/
def Frac.atMost (a b : Frac) : Bool := a.num * b.den ≤ b.num * a.den

namespace Machine

/-- `temp_raw`: offsets 1 to 4, unsigned (R89, R153). -/
def tempRawOf (bytes : List Byte) : BitVec 32 := BitVec.ofNat 32 (fieldCount bytes 1 4)

/-- `rtd_raw`: offsets 11 and 12 (R91, R155). -/
def rtdRawOf (bytes : List Byte) : BitVec 16 := BitVec.ofNat 16 (fieldCount bytes 11 2)

/-- `tc_raw`: offsets 13 and 14, used as-is (R92, R159). -/
def tcRawOf (bytes : List Byte) : BitVec 16 := BitVec.ofNat 16 (fieldCount bytes 13 2)

/-- `batt_raw`: offsets 15 and 16 (R93, R160). -/
def battRawOf (bytes : List Byte) : BitVec 16 := BitVec.ofNat 16 (fieldCount bytes 15 2)

/-- `temperature = temp_raw / 10000` degrees (R89). -/
def temperatureOf (tempRaw : BitVec 32) : Frac := ⟨tempRaw.toNat, Config.tempDiv⟩

/-- `rtd_resistance = rtd_raw * 400 / 32768` ohms (R151 step 4). -/
def resistanceOf (rtdRaw : BitVec 16) : Frac := ⟨rtdRaw.toNat * Config.rtdNum, Config.rtdDen⟩

/-- `res_q = 25 * rtd_raw`, 21 bits (R91). -/
def resQOf (rtdRaw : BitVec 16) : BitVec 21 := BitVec.ofNat 21 (Config.resMul * rtdRaw.toNat)

/-- `battery_voltage = batt_raw / 1000` volts (R93). -/
def voltageOf (battRaw : BitVec 16) : Frac := ⟨battRaw.toNat, Config.battDiv⟩

/-! ### Engineering values of a reading (R150, R226) -/

/-- Degrees. -/
def Reading.temperature (r : Reading) : Frac := temperatureOf r.tempRaw

/-- Ohms: `res_q / 2048`. -/
def Reading.rtdResistance (r : Reading) : Frac := ⟨r.resQ.toNat, Config.resDiv⟩

/-- The raw count itself. -/
def Reading.thermocouple (r : Reading) : Frac := ⟨r.tcRaw.toNat, 1⟩

/-- Volts. -/
def Reading.batteryVoltage (r : Reading) : Frac := voltageOf r.battRaw

/-! ### DevText (R163) -/

/-- The digit character of a number below 10. -/
def digit (n : Nat) : Char := Char.ofNat (48 + n)

/-- `dec(d)`: the shortest decimal numeral of a byte, without sign or leading zeros. -/
def decimal (d : Byte) : List Char :=
  let n := d.toNat
  if 100 ≤ n then [digit (n / 100), digit (n / 10 % 10), digit (n % 10)]
  else if 10 ≤ n then [digit (n / 10), digit (n % 10)]
  else [digit n]

/-- The characters of `DevText`: the four numerals in order, joined by one space. -/
def devChars (dev : Vector Byte 4) : List Char :=
  decimal dev[0] ++ ' ' :: decimal dev[1] ++ ' ' :: decimal dev[2] ++ ' ' :: decimal dev[3]

/-- `DevText`. -/
def devText (dev : Vector Byte 4) : String := String.ofList (devChars dev)

/-- The textual device identifier of a reading (R150). -/
def Reading.deviceId (r : Reading) : String := devText r.dev

end Machine

end Sys2Proof
end

