-- ==== Sys2Proof/Machine/Flags.lean ====
section
/-! DEFINITION. The advisory flags of PARSE (spec/41_packet_decoder.md R153, R158, R160, R164). The one stored flag, `esc`, is
written through `State.setEsc`; there are no condition codes (R26). -/

namespace Sys2Proof.Machine

/-- `v` lies outside the range `lo` to `hi`, closed at both ends. -/
def outside (lo hi v : Frac) : Bool := Frac.less v lo || Frac.less hi v

/-- `temp_adv`: the temperature is outside -100 to 100 degrees (R153). -/
def tempAdvOf (tempRaw : BitVec 32) : Bool := outside Config.tempAdvMin Config.tempAdvMax (temperatureOf tempRaw)

/-- `batt_adv`: the battery voltage is outside 0 to 10 V (R160). -/
def battAdvOf (battRaw : BitVec 16) : Bool := outside Config.battMin Config.battMax (voltageOf battRaw)

/-- `cal_miss`: LOOKUP failed (R158). -/
def calMissOf : LookupResult → Bool
  | .ok _ => false
  | .invalidInput => true

/-- `out_adv`: bit 0 `temp_adv`, bit 1 `batt_adv`, bit 2 `cal_miss` (R225). -/
def Adv.bits (a : Adv) : BitVec 3 := BitVec.ofBool a.calMiss ++ BitVec.ofBool a.battAdv ++ BitVec.ofBool a.tempAdv

end Sys2Proof.Machine
end

