-- ==== Sys2Proof/Machine/Lookup.lean ====
section
/-! DEFINITION. CAL, the RTD lookup engine (spec/42_rtd_lookup.md). -/

namespace Sys2Proof.Machine

/-- The distance from ROM word `w` to the operand, in units of `1 / (10000 * r.den)` ohm: an integer, so that distances
compare exactly (R186; for `r = res_q / 2048` it is 16 times R186's `D[i]`). -/
def distance (r : Frac) (w : RomWord) : Nat := ((w.toNat : Int) * r.den - (Config.romDiv : Int) * r.num).natAbs

/-- The scan of R181 from index `i` on, with the best index and distance so far; strict `<`, so that the lowest index
wins a tie (R183). It examines every entry and assumes no order (R185). -/
def scan (r : Frac) : List RomWord → Nat → Nat → Nat → Nat
  | [], _, best, _ => best
  | w :: ws, i, best, bestd =>
    if distance r w < bestd then scan r ws (i + 1) i (distance r w) else scan r ws (i + 1) best bestd

/-- LOOKUP (R181): InvalidInput for an operand that is no number or is negative, or an empty ROM (R182), else the nearest index less 200. -/
def lookup (rom : List RomWord) (r : Frac) : LookupResult :=
  match rom with
  | [] => .invalidInput
  | w :: ws =>
    if !r.isNumber || r.num < 0 then .invalidInput
    else .ok ((scan r ws 1 0 (distance r w) : Nat) - Config.tOffset)

/-- LOOKUP as an operation of its own: its result goes to the CAL to PAR interface; no state is written (R180, R188). -/
def execLookup (r : Frac) (s : State) : Result :=
  .next (s.present { Signals.quiet with calRsp := some (lookup s.rom r) })

end Sys2Proof.Machine
end

