-- ==== Sys2Proof/Machine/Validation.lean ====
section
/-! DEFINITION. VAL, sensor reading validation (spec/43_validation.md). -/

namespace Sys2Proof.Machine

/-- VALIDATE (R200): the battery voltage lies in 0 to 10 V, closed at both ends, and the raw packet has 18 bytes. Nothing
else is read (R204). -/
def valid (batteryVoltage : Frac) (packetLen : Nat) : Bool :=
  batteryVoltage.isNumber && Frac.atMost Config.battMin batteryVoltage && Frac.atMost batteryVoltage Config.battMax
    && packetLen == Config.frameLen

/-- VALIDATE as an operation of its own: it answers valid or invalid and writes no state (R200). -/
def execValidate (batteryVoltage : Frac) (packetLen : Nat) (s : State) : Result :=
  .next (s.present { Signals.quiet with verdict := some (valid batteryVoltage packetLen) })

end Sys2Proof.Machine
end

