-- ==== Sys2Proof/Machine/Parser.lean ====
section
/-! DEFINITION. PAR, the packet decoder (spec/41_packet_decoder.md R151). -/

namespace Sys2Proof.Machine

/-- Step 5's value: the integer LOOKUP returns, or the sentinel 0 (R157, R158). -/
def rtdTemperatureOf : LookupResult → Int
  | .ok t => t
  | .invalidInput => 0

/-- The candidate reading of step 7. -/
def readingOf (bytes : List Byte) (rsp : LookupResult) : Reading :=
  { tempRaw := tempRawOf bytes
    dev := devBytes bytes
    resQ := resQOf (rtdRawOf bytes)
    rtdTemperature := rtdTemperatureOf rsp
    tcRaw := tcRawOf bytes
    battRaw := battRawOf bytes
    rawPacket := bytes }

/-- Steps 5 to 7 (R157 to R161), for a packet of 18 bytes whose temperature advisory is `tAdv`. -/
def parseFromLookup (rom : List RomWord) (bytes : List Byte) (tAdv : Bool) : Signals :=
  let rsp := lookup rom (resistanceOf (rtdRawOf bytes))
  let reading := readingOf bytes rsp
  let ok := valid reading.batteryVoltage reading.rawPacket.length
  let p : Progress :=
    { adv := { tempAdv := tAdv, battAdv := battAdvOf reading.battRaw, calMiss := calMissOf rsp }
      calReq := some reading.resQ
      calRsp := some rsp
      verdict := some ok }
  if ok then deliver reading p else raiseError .invalidSensorData p

/-- Steps 2 to 7. The check of step 4 cannot fire and is kept (R156, R308). -/
def parseFields (rom : List RomWord) (bytes : List Byte) : Signals :=
  let tAdv := tempAdvOf (tempRawOf bytes)
  if Frac.less (resistanceOf (rtdRawOf bytes)) ⟨0, 1⟩ then
    raiseError .invalidSensorValue { Progress.start with adv := { Progress.start.adv with tempAdv := tAdv } }
  else parseFromLookup rom bytes tAdv

/-- PARSE (R151): what it presents for a packet that is absent or a sequence of bytes, with step 1 first (R152). -/
def parse (rom : List RomWord) : Option (List Byte) → Signals
  | none => raiseError .invalidLength Progress.start
  | some bytes =>
    if bytes.length ≠ Config.frameLen then raiseError .invalidLength Progress.start else parseFields rom bytes

/-- PARSE as an operation: it reads the ROM and its packet, and writes no state (R151, R162). -/
def execParse (pkt : Option (List Byte)) (s : State) : Result := .next (s.present (parse s.rom pkt))

end Sys2Proof.Machine
end

