-- ==== Sys2Proof/Machine/Framer.lean ====
section
/-! DEFINITION. FRM, the byte-stream framer (spec/40_framer.md R121 to R128), and the transmitter's FRAME (R102). -/

namespace Sys2Proof.Machine

/-- CLR (R128): `esc <- 0 ; len <- 0`, without a trace. -/
def execClr (s : State) : Result := .next ((s.setEsc false).setLen 0#5).quiet

/-- IDLE (R121): nothing. -/
def execIdle (s : State) : Result := .next s.quiet

/-- LIT (R126): append the byte whatever its value, then `esc <- 0`. -/
def execLit (b : Byte) (s : State) : Result := .next ((s.append b).setEsc false).quiet

/-- ESC (R122): `esc <- 1`. -/
def execEsc (s : State) : Result := .next (s.setEsc true).quiet

/-- SOF (R123): `len <- 0`, without a warning. -/
def execSof (s : State) : Result := .next (s.setLen 0#5).quiet

/-- The FRM to PAR pulse of an EOF that hands a packet over: `pkt_len` is `len`, `pkt_bytes` the 18 bytes (R232). -/
def packetPulse (s : State) : PktPulse := ⟨s.len, packBytes 144 s.packet⟩

/-- EOF (R124): with exactly 18 bytes, `len <- 0` and PARSE of a copy of them; with any other count, `len <- 0` and the
discard warning. -/
def execEof (s : State) : Result :=
  if s.len = 18#5 then
    .next ((s.setLen 0#5).beginParse.present { parse s.rom (some s.packet) with pkt := some (packetPulse s) })
  else .next (s.setLen 0#5).emitDiscard

/-- DATA (R125): append the byte. -/
def execData (b : Byte) (s : State) : Result := .next (s.append b).quiet

/-- FRAME (R102): it "expands to the stream" of R102, which the transmitter sends next: its bytes come to stand before
what waits at the input. It is no operation of the block and changes nothing in it (notes/assumptions/8.md). -/
def execFrame (f : FrameArgs) (s : State) : Result := .next (s.enqueue ((frameStream f).map bytePorts)).quiet

end Sys2Proof.Machine
end

