-- ==== Sys2Proof/Machine/Dispatch.lean ====
section
/-! DEFINITION. One arm per operation of spec/opcode_table.json. -/

namespace Sys2Proof.Machine

def exec (i : Instr) (s : State) : Host.Outcome State Fault Refusal :=
  match i with
  | .clr => Sys2Proof.Machine.execClr s
  | .idle => Sys2Proof.Machine.execIdle s
  | .lit b => Sys2Proof.Machine.execLit b s
  | .esc => Sys2Proof.Machine.execEsc s
  | .sof => Sys2Proof.Machine.execSof s
  | .eof => Sys2Proof.Machine.execEof s
  | .data b => Sys2Proof.Machine.execData b s
  | .parse pkt => Sys2Proof.Machine.execParse pkt s
  | .lookup r => Sys2Proof.Machine.execLookup r s
  | .validate v n => Sys2Proof.Machine.execValidate v n s
  | .frame f => Sys2Proof.Machine.execFrame f s

end Sys2Proof.Machine
end

