-- ==== Sys2Proof/Machine/Edge.lean ====
section
/-! DEFINITION. One rising edge of `clk`: the sample at the input ports, `in_ready`, and the input event they form
(spec/45_pipeline.md R221, R222). -/

namespace Sys2Proof.Machine

/-- The ports when the host presents nothing and requests nothing. -/
def silentPorts : InPorts := { rst := false, clr := false, inValid := false, inByte := 0#8, stall := false }

/-- A reset request: `rst = 1` or `clr = 1` (R230). -/
def resetRequest (p : InPorts) : Bool := p.rst || p.clr

/-- The sample at the next edge; a host that has nothing more to present leaves the ports silent. -/
def State.sample (s : State) : InPorts := s.inq.headD silentPorts

/-- The block is still completing a step that invoked PARSE at the edge with ports `p` (R222). -/
def stalled (s : State) (p : InPorts) : Bool := s.completing && p.stall

/-- `in_ready` at the edge with ports `p`: 0 with a reset request, and 0 while a step that invoked PARSE is completing; else 1 (R222). -/
def inReady (s : State) (p : InPorts) : Bool := !resetRequest p && !stalled s p

/-- Event formation (R222). -/
def formEvent (p : InPorts) (ready : Bool) : Event :=
  if resetRequest p then .clr else if p.inValid && ready then .byte p.inByte else .idle

/-- The input event of the next edge. -/
def State.event (s : State) : Event := formEvent s.sample (inReady s s.sample)

/-- The state in which the operation of the next edge runs: the sample is taken, the edge is counted, and a parse that
is no longer completing, or that a reset request cuts off, is forgotten. -/
def State.edge (s : State) : State :=
  { s with
    inq := s.inq.tail
    completing := stalled s s.sample && !resetRequest s.sample
    tick := s.tick + 1 }

/-- The spec defines what happens at this edge: `len` is in its range 0 to 19, or the event is a reset request, which sets
it whatever it was (R21, R128, R291). -/
def State.defined (s : State) : Bool := s.len.toNat ≤ Config.lenSat || s.event == .clr

end Sys2Proof.Machine
end

