-- ==== Sys2Proof/Machine/Step.lean ====
section
/-! DEFINITION. One step of the machine: one input event, one operation (spec/45_pipeline.md R220). -/

namespace Sys2Proof.Machine

/-- STEP (R220): form the event of the next edge, select the operation by `esc` and the event, run it. A state that only a
block never reset can be in has no step but for a reset request (R291). -/
def step (s : State) : Host.Outcome State Fault Refusal :=
  if s.defined then exec (select s.esc s.event) s.edge else .refused .undefinedBeforeReset

/-- The state whose next step runs the operation of a table word: its ports stand at the next edge, and, where a byte is
presented, `esc` is what the word says (notes/assumptions/10.md). -/
def State.withFetchWord (s : State) (_nbits w : Nat) : State :=
  let s' := { s with inq := wordPorts w :: s.inq }
  match wordEvent w with
  | .byte _ => { s' with esc := wordEsc w }
  | .idle => s'
  | .clr => s'

end Sys2Proof.Machine
end

