-- ==== Sys2Proof/Machine/Ports.lean ====
section
/-! DEFINITION. The output ports (spec/45_pipeline.md R225, R226) and the internal interfaces (R232) as views of the state's
signals. A port the spec leaves unspecified at an edge shows a free value (U7, U11, U12). -/

namespace Sys2Proof.Machine

/-- The output ports (R225). -/
structure OutPorts where
  outValid   : Bool
  outStatus  : BitVec 2
  outAdv     : BitVec 3
  outTemp    : BitVec 32
  outDev     : BitVec 32
  outRtdRes  : BitVec 21
  outRtdTemp : BitVec 16
  outTc      : BitVec 16
  outBatt    : BitVec 16
  outRaw     : BitVec 144
  frmDiscard : Bool
  deriving DecidableEq, Repr

/-- The internal interfaces (R232). -/
structure BusPorts where
  pktValid : Bool
  pktLen   : BitVec 5
  pktBytes : BitVec 144
  calReq   : Bool
  calR     : BitVec 21
  calDone  : Bool
  calErr   : BitVec 1
  calT     : BitVec 16
  deriving DecidableEq, Repr

/-- The codes of `out_status` (R256). -/
def statusCode : ParseResult → BitVec 2
  | .ok _ => 0#2
  | .err .invalidLength => 1#2
  | .err .invalidSensorValue => 2#2
  | .err .invalidSensorData => 3#2

/-- Output ports on which nothing is presented: `out_valid` and `frm_discard` are 0, every other port holds any value (U12). -/
def idlePorts (tick : Nat) : OutPorts :=
  { outValid := false
    outStatus := Config.freeBits .outStatus tick 2
    outAdv := Config.freeBits .outAdv tick 3
    outTemp := Config.freeBits .outTemp tick 32
    outDev := Config.freeBits .outDev tick 32
    outRtdRes := Config.freeBits .outRtdRes tick 21
    outRtdTemp := Config.freeBits .outRtdTemp tick 16
    outTc := Config.freeBits .outTc tick 16
    outBatt := Config.freeBits .outBatt tick 16
    outRaw := Config.freeBits .outRaw tick 144
    frmDiscard := false }

/-- The seven field ports of a reading (R225, R226). -/
def Reading.onPorts (r : Reading) (p : OutPorts) : OutPorts :=
  { p with
    outTemp := r.tempRaw
    outDev := packBytes 32 r.dev.toList
    outRtdRes := r.resQ
    outRtdTemp := BitVec.ofInt 16 r.rtdTemperature
    outTc := r.tcRaw
    outBatt := r.battRaw
    outRaw := packBytes 144 r.rawPacket }

/-- The field ports of a PARSE result: the reading's, or, with an error, any value (R225, U7). -/
def ParseResult.onPorts (res : ParseResult) (p : OutPorts) : OutPorts :=
  match res with
  | .ok r => r.onPorts p
  | .err _ => p

/-- The output ports after an operation (R225). -/
def State.outPorts (s : State) : OutPorts :=
  match s.sig.out with
  | .nothing => idlePorts s.tick
  | .discard => { idlePorts s.tick with frmDiscard := true }
  | .result res adv =>
    res.onPorts { idlePorts s.tick with outValid := true, outStatus := statusCode res, outAdv := adv.bits }

/-- `cal_err` and `cal_t` of a LOOKUP result; `cal_t` is unspecified with an error (R232, U11). -/
def calReply (tick : Nat) : LookupResult → BitVec 1 × BitVec 16
  | .ok t => (0#1, BitVec.ofInt 16 t)
  | .invalidInput => (1#1, Config.freeBits .calT tick 16)

/-- The internal interfaces after an operation (R232). -/
def State.busPorts (s : State) : BusPorts :=
  { pktValid := s.sig.pkt.isSome
    pktLen := (s.sig.pkt.map PktPulse.pktLen).getD (Config.freeBits .pktLen s.tick 5)
    pktBytes := (s.sig.pkt.map PktPulse.pktBytes).getD (Config.freeBits .pktBytes s.tick 144)
    calReq := s.sig.calReq.isSome
    calR := s.sig.calReq.getD (Config.freeBits .calR s.tick 21)
    calDone := s.sig.calRsp.isSome
    calErr := (s.sig.calRsp.map fun c => (calReply s.tick c).1).getD (Config.freeBits .calErr s.tick 1)
    calT := (s.sig.calRsp.map fun c => (calReply s.tick c).2).getD (Config.freeBits .calT s.tick 16) }

end Sys2Proof.Machine
end

