-- ==== Sys2Proof/Machine/SourceFramer.lean ====
section
/-! DEFINITION. The source's own framer, DecoderState with an unbounded buffer (spec/10_state.md R30, spec/40_framer.md R120),
for the statement that the hardware's finite state answers as it does. It is no part of the machine. -/

namespace Sys2Proof.Machine

/-- DecoderState: "an `escape` flag and an in-progress byte buffer", of any length (R30). -/
structure SourceState where
  escape : Bool
  bytes  : List Byte
  deriving DecidableEq, Repr

/-- A fresh FrameDecoder (R31). -/
def SourceState.fresh : SourceState := ⟨false, []⟩

/-- One call of the source's state machine: the five transitions R120 quotes, and `reset()` (R128); no input changes
nothing (R121). -/
def sourceStep (rom : List RomWord) : Event → SourceState → SourceState × OutEvent
  | .clr, _ => (⟨false, []⟩, .nothing)
  | .idle, d => (d, .nothing)
  | .byte b, d =>
    if d.escape then (⟨false, d.bytes ++ [b]⟩, .nothing)
    else if b = 0x08#8 then (⟨true, d.bytes⟩, .nothing)
    else if b = 0x0D#8 then (⟨false, []⟩, .nothing)
    else if b = 0x0A#8 then
      (⟨false, []⟩, if d.bytes.length = 18 then (parse rom (some d.bytes)).out else .discard)
    else (⟨false, d.bytes ++ [b]⟩, .nothing)

/-- The source's run over events, with the output of each call. -/
def sourceFeed (rom : List RomWord) : List Event → SourceState → SourceState × List OutEvent
  | [], d => (d, [])
  | ev :: evs, d =>
    let r := sourceStep rom ev d
    let rest := sourceFeed rom evs r.1
    (rest.1, r.2 :: rest.2)

/-- The abstraction of R30 from a source state to the hardware's state: "`esc` = `escape`; `len` = min(|`S`|, 19);
`BUF[k]` = `S[k]` for `k` < min(|`S`|, 18)". -/
def Abstracts (d : SourceState) (s : State) : Prop :=
  s.esc = d.escape ∧ s.len.toNat = min d.bytes.length 19 ∧
    ∀ k : Fin 18, k.val < d.bytes.length → d.bytes[k.val]? = some (s.readBuf k)

end Sys2Proof.Machine
end

