-- ==== Sys2Proof/Machine/Run.lean ====
section
/-! DEFINITION. A run of the block: "the fold of `STEP` over the sequence of input events" (spec/45_pipeline.md R220), over
events alone, and over the machine's own steps. -/

namespace Sys2Proof.Machine

/-- STEP on an event, the input queue and the clock apart (R120, R220). -/
def stepEvent (ev : Event) (s : State) : Result := exec (select s.esc ev) s

/-- The fold of STEP over events: the last state, and the output event of each step in order. -/
def feed : List Event → State → Option (State × List OutEvent)
  | [], s => some (s, [])
  | ev :: evs, s =>
    match stepEvent ev s with
    | .next t => (feed evs t).map fun r => (r.1, t.sig.out :: r.2)
    | .fault _ => none
    | .refused _ => none

/-- The input events of the first `n` steps of the machine, up to a step that has no next state: what each edge forms of its
sample and of `in_ready` there (R222). -/
def events : Nat → State → List Event
  | 0, _ => []
  | n + 1, s =>
    match step s with
    | .next t => s.event :: events n t
    | .fault _ => []
    | .refused _ => []

/-- The output events of the first `n` steps of the machine, up to a step that has no next state. -/
def outputs : Nat → State → List OutEvent
  | 0, _ => []
  | n + 1, s =>
    match step s with
    | .next t => t.sig.out :: outputs n t
    | .fault _ => []
    | .refused _ => []

/-- The observable outputs of a run: the output events other than `None`, each with the index of the input event that
produced it (R220). -/
def observable (outs : List OutEvent) : List (Nat × OutEvent) :=
  (outs.zipIdx.map fun p => (p.2, p.1)).filter fun p => p.2 != .nothing

/-- The bytes of a stream as input events (R100). -/
def byteEvents (bytes : List Byte) : List Event := bytes.map .byte

end Sys2Proof.Machine
end

