-- ==== Sys2Proof/Safety.lean ====
section
/-! DEFINITION. What holds of every state a run is in, and the named hypotheses a claim may add about the ROM
(spec/10_state.md R32, spec/42_rtd_lookup.md R190). -/

namespace Sys2Proof.Safety

open Sys2Proof.Machine

/-- Every byte of the frame buffer reads as before. -/
abbrev SameBuffer (t s : State) : Prop := ∀ k : Fin 18, t.readBuf k = s.readBuf k

/-- The ROM, the waiting input, the completing mark and the edge count are as before. -/
abbrev SameSurroundings (t s : State) : Prop :=
  t.rom = s.rom ∧ t.inq = s.inq ∧ t.completing = s.completing ∧ t.tick = s.tick

/-- Every part of the state but the presented signals is as before. -/
abbrev OnlySignals (t s : State) : Prop :=
  t.esc = s.esc ∧ t.len = s.len ∧ SameBuffer t s ∧ SameSurroundings t s

/-- The block is as in the other state: its registers, its ROM and what it presents; what waits at the input and the edge
count may differ. -/
abbrev SameBlock (t s : State) : Prop :=
  t.esc = s.esc ∧ t.len = s.len ∧ SameBuffer t s ∧ t.rom = s.rom ∧ t.sig = s.sig

/-- `CAL[i]` in ohms, as a rational number (R51). -/
def calOhms (rom : List RomWord) (i : Nat) : Rat := (ohms (rom.getD i 0#24)).toRat

/-- Two states that no operation can tell apart by the spec: they differ at most in registers `BUF[k]` with `k` at or
above `len`, which "no operation reads" (R22). -/
def SameButStale (s t : State) : Prop :=
  t.esc = s.esc ∧ t.len = s.len ∧ t.rom = s.rom ∧ t.inq = s.inq ∧ t.completing = s.completing ∧ t.sig = s.sig ∧
    t.tick = s.tick ∧ ∀ k : Fin 18, k.val < s.len.toNat → t.readBuf k = s.readBuf k

/-- `len` is in its range (R32). -/
abbrev LenLegal (s : State) : Prop := s.len.toNat ≤ 19

/-- `N_CAL` is in its range (00_scope.md, parameter table; U16). -/
abbrev RomLegal (s : State) : Prop := s.rom.length ≤ 32768

/-- What the block may have on its output: nothing, a discard, a valid reading that is the decode of its own raw packet,
with its temperature in the range of its 16-bit port (R226), or the one error the composed block can raise (R252 to R254). -/
def OutputSound (rom : List RomWord) : OutEvent → Prop
  | .nothing => True
  | .discard => True
  | .result (.ok r) adv =>
    r.rawPacket.length = 18 ∧ r = readingOf r.rawPacket (lookup rom (resistanceOf (rtdRawOf r.rawPacket))) ∧
      r.battRaw.toNat ≤ 10000 ∧ adv.battAdv = false ∧ -200 ≤ r.rtdTemperature ∧ r.rtdTemperature ≤ 32567
  | .result (.err e) adv => e = .invalidSensorData ∧ adv.battAdv = true

/-- The invariant of a run. -/
def Inv (s : State) : Prop := LenLegal s ∧ RomLegal s ∧ OutputSound s.rom s.sig.out

/-- A run of `n` steps is safe: it stops nowhere and ends in a state that keeps the invariant (R132, R220). -/
def SafeRun (n : Nat) (s : State) : Prop := ∃ t, Sys2Proof.core.run n s = .next t ∧ Inv t

/-- Hypothesis CAL_NONEMPTY (R190). -/
def CalNonempty (rom : List RomWord) : Prop := 1 ≤ rom.length

/-- Hypothesis CAL_LOW (R190). -/
def CalLow (rom : List RomWord) : Prop := lookup rom ⟨184932, 10000⟩ = .ok (-200)

/-- Hypothesis CAL_HIGH (R190). -/
def CalHigh (rom : List RomWord) : Prop := lookup rom ⟨3902623, 10000⟩ = .ok ((rom.length : Int) - 1 - 200)

/-- Entries `i < j` are duplicated or out of order: the later one is not the greater one. -/
abbrev Misordered (rom : List RomWord) (i j : Nat) : Prop :=
  i < j ∧ j < rom.length ∧ rom.getD j 0#24 ≤ rom.getD i 0#24

/-- The sub-range of indices `lo` to `hi` has duplicated or out-of-order entries. -/
def NonmonoRange (rom : List RomWord) (lo hi : Nat) : Prop := ∃ i j, lo ≤ i ∧ j ≤ hi ∧ Misordered rom i j

/-- Hypothesis CAL_NONMONO (R190): the table "has duplicated or out-of-order entries in two sub-ranges". The source does not
say which two (N1), so they are some two, the second after the first; each has such entries, and all such entries lie in
one of them or the other (that no others exist is DEDUCED from the word two, notes/assumptions/15.md). -/
def CalNonmono (rom : List RomWord) : Prop :=
  ∃ lo₁ hi₁ lo₂ hi₂, hi₁ < lo₂ ∧ NonmonoRange rom lo₁ hi₁ ∧ NonmonoRange rom lo₂ hi₂ ∧
    ∀ j < rom.length, ∀ i < j, Misordered rom i j → (lo₁ ≤ i ∧ j ≤ hi₁) ∨ (lo₂ ≤ i ∧ j ≤ hi₂)

end Sys2Proof.Safety
end

