-- ==== Sys2Proof/Certificates/Slice0/Obligations.lean ====
section
/-! DEFINITION. The statements for the provers. Each docstring names the rules of spec/ it formalises; a clause that rests
on a choice of the model says so and names the log entry. -/

open Sys2Proof Sys2Proof.Machine Sys2Proof.Safety

/-! ### The framer's operations: selection, effect and frame -/

/-- R128, R230. CLR: every reset request selects it, whatever byte is presented; it completes in every state, clears `esc` and
`len`, writes no `BUF[k]`, and presents nothing. -/
def Obligations.ClrClearsEscAndLenOnly : Prop :=
  (∀ (p : InPorts) (ready : Bool), p.rst = true ∨ p.clr = true → formEvent p ready = .clr) ∧
  (∀ e : Bool, select e .clr = .clr) ∧
  ∀ s : State, ∃ t, exec .clr s = .next t ∧ t.esc = false ∧ t.len = 0#5 ∧ SameBuffer t s ∧ SameSurroundings t s ∧
    t.sig = Signals.quiet

/-- R121. IDLE: no byte and no reset request select it; it completes in every state and changes nothing but that no output
event is presented any more. -/
def Obligations.IdleChangesNothing : Prop :=
  (∀ (p : InPorts) (ready : Bool), p.rst = false → p.clr = false → p.inValid = false → formEvent p ready = .idle) ∧
  (∀ e : Bool, select e .idle = .idle) ∧
  ∀ s : State, ∃ t, exec .idle s = .next t ∧ OnlySignals t s ∧ t.sig = Signals.quiet

/-- R122. ESC: byte 0x08 in state Normal; it sets `esc` and changes nothing else. -/
def Obligations.EscSetsTheEscapeFlagOnly : Prop :=
  select false (.byte 0x08#8) = .esc ∧
  ∀ s : State, ∃ t, exec .esc s = .next t ∧ t.esc = true ∧ t.len = s.len ∧ SameBuffer t s ∧ SameSurroundings t s ∧
    t.sig = Signals.quiet

/-- R123. SOF: byte 0x0D in state Normal; it sets `len` to 0, at any `len`, without a warning, and changes nothing else. -/
def Obligations.SofClearsLenWithoutWarning : Prop :=
  select false (.byte 0x0D#8) = .sof ∧
  ∀ s : State, ∃ t, exec .sof s = .next t ∧ t.len = 0#5 ∧ t.esc = s.esc ∧ SameBuffer t s ∧ SameSurroundings t s ∧
    t.sig = Signals.quiet

/-- R124, R251. EOF: byte 0x0A in state Normal. It completes at every `len`. With 18 bytes it emits what PARSE answers on the
18 bytes of the buffer in offset order; with any other count it emits the discard warning. Either way `len` becomes 0,
`esc` and the buffer stay, and the ROM, the input and the edge count stay. -/
def Obligations.EofHandsOverOrDiscards : Prop :=
  select false (.byte 0x0A#8) = .eof ∧
  ∀ s : State, ∃ t, exec .eof s = .next t ∧ t.len = 0#5 ∧ t.esc = s.esc ∧ SameBuffer t s ∧ t.rom = s.rom ∧ t.inq = s.inq ∧
    t.tick = s.tick ∧
    (s.len = 18#5 → t.sig.out = (parse s.rom (some ((List.finRange 18).map s.readBuf))).out) ∧
    (s.len ≠ 18#5 → t.sig = { Signals.quiet with out := .discard } ∧ t.completing = s.completing)

/-- R125, R127. DATA: any byte but the three control codes in state Normal. The store goes to the offset
`State.appendIndex` gives; with none, no byte of the buffer changes and `len` becomes 19. -/
def Obligations.DataAppendsItsByte : Prop :=
  (∀ b : Byte, b ≠ 0x08#8 → b ≠ 0x0D#8 → b ≠ 0x0A#8 → select false (.byte b) = .data b) ∧
  ∀ (b : Byte) (s : State), ∃ t, exec (.data b) s = .next t ∧ t.esc = s.esc ∧ SameSurroundings t s ∧ t.sig = Signals.quiet ∧
    (∀ k, s.appendIndex = some k →
      t.readBuf k = b ∧ t.len.toNat = s.len.toNat + 1 ∧ ∀ j, j ≠ k → t.readBuf j = s.readBuf j) ∧
    (s.appendIndex = none → t.len = 19#5 ∧ SameBuffer t s)

/-- R126, R127. LIT: every byte in state Escaped. It appends its byte, whatever it is, and clears `esc`. -/
def Obligations.LitAppendsAnyByteAndClearsEsc : Prop :=
  (∀ b : Byte, select true (.byte b) = .lit b) ∧
  ∀ (b : Byte) (s : State), ∃ t, exec (.lit b) s = .next t ∧ t.esc = false ∧ SameSurroundings t s ∧ t.sig = Signals.quiet ∧
    (∀ k, s.appendIndex = some k →
      t.readBuf k = b ∧ t.len.toNat = s.len.toNat + 1 ∧ ∀ j, j ≠ k → t.readBuf j = s.readBuf j) ∧
    (s.appendIndex = none → t.len = 19#5 ∧ SameBuffer t s)

/-- R127. Where APPEND stores: at offset `len` for `len` 0 to 17, nowhere from 18 on. -/
def Obligations.AppendOffsetIsLen : Prop :=
  ∀ s : State, (∀ k, s.appendIndex = some k ↔ s.len.toNat = k.val) ∧ (s.appendIndex = none ↔ 18 ≤ s.len.toNat)

/-- R102. FRAME expands to its stream: 0x0D, the 18 bytes of `Encode` each stuffed, 0x0A, with the bytes of R102's list; the
stream stands at the input before what waited there, and nothing in the block changes (that the expansion is put at the
input is the model's choice, notes/assumptions/8.md). -/
def Obligations.FrameExpandsToItsStream : Prop :=
  ∀ (f : FrameArgs) (s : State), ∃ t, exec (.frame f) s = .next t ∧
    t.inq = ([0x0D#8] ++ stuffAll [f.r0, f.temp.extractLsb 7 0, f.temp.extractLsb 15 8, f.temp.extractLsb 23 16,
      f.temp.extractLsb 31 24, f.r5, f.r6, f.dev[0], f.dev[1], f.dev[2], f.dev[3], f.rtd.extractLsb 7 0,
      f.rtd.extractLsb 15 8, f.tc.extractLsb 7 0, f.tc.extractLsb 15 8, f.batt.extractLsb 7 0, f.batt.extractLsb 15 8,
      f.r17] ++ [0x0A#8]).map bytePorts ++ s.inq ∧
    t.esc = s.esc ∧ t.len = s.len ∧ SameBuffer t s ∧ t.rom = s.rom ∧ t.completing = s.completing ∧ t.tick = s.tick ∧
    t.sig = Signals.quiet

/-! ### PARSE, LOOKUP, VALIDATE -/

/-- R151, R152. PARSE completes in every state and writes no state. For an absent packet, or one whose length is not 18, it
answers InvalidLength with all three advisory flags 0 and nothing else computed. For 18 bytes it answers by the exact
engineering values: InvalidSensorData where the battery voltage is outside 0 to 10 V, else the reading with every field;
the advisory flags come with either; a failed lookup puts 0 for the RTD temperature and sets `cal_miss`. -/
def Obligations.ParseFollowsItsSteps : Prop :=
  (∀ (pkt : Option (List Byte)) (s : State), (∀ bytes, pkt = some bytes → bytes.length ≠ 18) →
    ∃ t, exec (.parse pkt) s = .next t ∧ OnlySignals t s ∧
      t.sig = { Signals.quiet with out := .result (.err .invalidLength) ⟨false, false, false⟩ }) ∧
  ∀ (bytes : List Byte) (s : State), bytes.length = 18 →
    let b := fun o : Nat => (bytes.getD o 0#8).toNat
    let temp : Nat := b 1 + 2 ^ 8 * b 2 + 2 ^ 16 * b 3 + 2 ^ 24 * b 4
    let rtd : Nat := b 11 + 2 ^ 8 * b 12
    let tc : Nat := b 13 + 2 ^ 8 * b 14
    let batt : Nat := b 15 + 2 ^ 8 * b 16
    let found := lookup s.rom ⟨rtd * 400, 32768⟩
    let volts : Rat := (batt : Rat) / 1000
    ∃ t, exec (.parse (some bytes)) s = .next t ∧ OnlySignals t s ∧
      ∃ adv : Adv, (adv.tempAdv = true ↔ (temp : Rat) / 10000 < -100 ∨ 100 < (temp : Rat) / 10000) ∧
        (adv.battAdv = true ↔ volts < 0 ∨ 10 < volts) ∧ (adv.calMiss = true ↔ found = .invalidInput) ∧
        (volts < 0 ∨ 10 < volts → t.sig.out = .result (.err .invalidSensorData) adv) ∧
        (0 ≤ volts → volts ≤ 10 → ∃ r : Reading, t.sig.out = .result (.ok r) adv ∧ r.tempRaw.toNat = temp ∧
          (∀ k : Fin 4, r.dev[k] = bytes.getD (7 + k.val) 0#8) ∧ r.resQ.toNat = 25 * rtd ∧ r.tcRaw.toNat = tc ∧
          r.battRaw.toNat = batt ∧ r.rawPacket = bytes ∧
          (∀ v, found = .ok v → r.rtdTemperature = v) ∧ (found = .invalidInput → r.rtdTemperature = 0))

/-- R153, R160. The advisory flags on the exact engineering values, and the raw counts at which they change. -/
def Obligations.AdvisoryFlagsAreRangeChecks : Prop :=
  (∀ v : BitVec 32, (tempAdvOf v = true ↔ (temperatureOf v).toRat < -100 ∨ 100 < (temperatureOf v).toRat) ∧
    (tempAdvOf v = true ↔ 1000000 < v.toNat)) ∧
  ∀ v : BitVec 16, (battAdvOf v = true ↔ (voltageOf v).toRat < 0 ∨ 10 < (voltageOf v).toRat) ∧
    (battAdvOf v = true ↔ 10000 < v.toNat)

/-- R89, R91 to R93, R226. The engineering values of a reading are the exact rationals the rules give, and `res_q / 2048` is
`rtd_raw * 400 / 32768`. -/
def Obligations.EngineeringValuesAreExact : Prop :=
  (∀ r : Reading, r.temperature.toRat = (r.tempRaw.toNat : Rat) / 10000 ∧ r.rtdResistance.toRat = (r.resQ.toNat : Rat) / 2048 ∧
    r.thermocouple.toRat = (r.tcRaw.toNat : Rat) ∧ r.batteryVoltage.toRat = (r.battRaw.toNat : Rat) / 1000) ∧
  ∀ raw : BitVec 16, (resistanceOf raw).toRat = (raw.toNat : Rat) * 400 / 32768 ∧
    ((resQOf raw).toNat : Rat) / 2048 = (raw.toNat : Rat) * 400 / 32768

/-- R165. Two packets that differ only in the reserved bytes get the same result but for `raw_packet`: the same error, or
readings with the same other fields; and the same flags. -/
def Obligations.ReservedBytesOnlyReachRawPacket : Prop :=
  ∀ (rom : List RomWord) (a c : List Byte), a.length = 18 → c.length = 18 →
    (∀ o, o ≠ 0 → o ≠ 5 → o ≠ 6 → o ≠ 17 → a.getD o 0#8 = c.getD o 0#8) →
    (∀ e adv, (parse rom (some a)).out = .result (.err e) adv → (parse rom (some c)).out = .result (.err e) adv) ∧
    ∀ r adv, (parse rom (some a)).out = .result (.ok r) adv →
      (parse rom (some c)).out = .result (.ok { r with rawPacket := c }) adv

/-- R167, R204. Whether a packet of 18 bytes is accepted depends on its battery count alone: temperature, device id, RTD,
thermocouple and a failed lookup reject nothing. -/
def Obligations.OnlyTheBatteryRejects : Prop :=
  ∀ (rom : List RomWord) (bytes : List Byte), bytes.length = 18 →
    ((∃ r adv, (parse rom (some bytes)).out = .result (.ok r) adv) ↔
      (bytes.getD 15 0#8).toNat + 256 * (bytes.getD 16 0#8).toNat ≤ 10000)

/-- R258. A lookup failure and an out-of-range battery on one packet are reported together: InvalidSensorData, with `cal_miss`
and `batt_adv` set; and InvalidLength comes before both. -/
def Obligations.FirstErrorInStepOrder : Prop :=
  ∀ bytes : List Byte,
    (bytes.length = 18 → 10000 < (bytes.getD 15 0#8).toNat + 256 * (bytes.getD 16 0#8).toNat →
      ∃ tAdv, (parse [] (some bytes)).out = .result (.err .invalidSensorData) ⟨tAdv, true, true⟩) ∧
    (bytes.length ≠ 18 → ∀ rom, (parse rom (some bytes)).out = .result (.err .invalidLength) ⟨false, false, false⟩)

/-- R156, R253. PARSE never answers InvalidSensorValue, for any ROM and any packet. -/
def Obligations.InvalidSensorValueNeverAppears : Prop :=
  ∀ (rom : List RomWord) (pkt : Option (List Byte)) (adv : Adv),
    (parse rom pkt).out ≠ .result (.err .invalidSensorValue) adv

/-- R181, R183. LOOKUP of a non-negative number on a non-empty ROM completes, writes no state, and answers the index less 200
of an entry at the least distance, the lowest such index: every earlier entry is strictly farther. -/
def Obligations.LookupFindsLowestNearestIndex : Prop :=
  ∀ (r : Frac) (s : State), r.den ≠ 0 → 0 ≤ r.num → s.rom ≠ [] →
    ∃ t i, exec (.lookup r) s = .next t ∧ OnlySignals t s ∧ t.sig = { Signals.quiet with calRsp := some (.ok ((i : Nat) - 200)) } ∧
      i < s.rom.length ∧ (∀ j < s.rom.length, |calOhms s.rom i - r.toRat| ≤ |calOhms s.rom j - r.toRat|) ∧
      ∀ j < i, |calOhms s.rom i - r.toRat| < |calOhms s.rom j - r.toRat|

/-- R182. LOOKUP completes with InvalidInput for a negative operand and for an empty ROM. That it also does so for an operand
with denominator 0 is the model's choice (notes/assumptions/9.md): such a `Frac` stands for "not a finite number", which
"has no representation" in this hardware, so R182 says nothing of it. -/
def Obligations.LookupFailsOnBadOperandOrEmptyRom : Prop :=
  ∀ (r : Frac) (s : State), r.den = 0 ∨ r.toRat < 0 ∨ s.rom = [] →
    ∃ t, exec (.lookup r) s = .next t ∧ OnlySignals t s ∧ t.sig = { Signals.quiet with calRsp := some .invalidInput }

/-- R184, R191. From PARSE, LOOKUP fails exactly on the empty ROM, and its answer lies in -200 to N_CAL - 201. -/
def Obligations.PipelineLookupRange : Prop :=
  ∀ (rom : List RomWord) (raw : BitVec 16),
    (lookup rom (resistanceOf raw) = .invalidInput ↔ rom = []) ∧
    ∀ t, lookup rom (resistanceOf raw) = .ok t → -200 ≤ t ∧ t ≤ (rom.length : Int) - 201

/-- R186. The integer `D[i]` of R186 is 1280000 times the exact distance, and orders ROM entries as the model's scan does. -/
def Obligations.IntegerDistanceIsExact : Prop :=
  ∀ (raw : BitVec 16) (w : RomWord),
    let d := fun w : RomWord => ((128 * w.toNat : Int) - 625 * (25 * raw.toNat : Int)).natAbs
    (d w : Rat) = 1280000 * |(ohms w).toRat - (resistanceOf raw).toRat| ∧ d w < 2 ^ 31 ∧
      ∀ w', distance (resistanceOf raw) w < distance (resistanceOf raw) w' ↔ d w < d w'

/-- R200. VALIDATE completes, writes no state, and answers valid exactly for a voltage in 0 to 10 V, closed at both ends, with
a packet length of 18, on the exact voltage. The last clause, that a voltage with denominator 0 is invalid, is the model's
choice alone (notes/assumptions/9.md): the spec is silent on it. -/
def Obligations.ValidateIsTheClosedRange : Prop :=
  ∀ (v : Frac) (n : Nat) (s : State),
    ∃ t a, exec (.validate v n) s = .next t ∧ OnlySignals t s ∧ t.sig = { Signals.quiet with verdict := some a } ∧
      (v.den ≠ 0 → (a = true ↔ 0 ≤ v.toRat ∧ v.toRat ≤ 10 ∧ n = 18)) ∧ (v.den = 0 → a = false)

/-- R201, R202. The boundaries: 0 V and 10 V valid, 10.0001 V and -0.0001 V invalid; and from a 16-bit count VALIDATE is
`batt_raw <= 10000`. -/
def Obligations.BatteryBoundaries : Prop :=
  valid ⟨0, 1⟩ 18 = true ∧ valid ⟨10, 1⟩ 18 = true ∧ valid ⟨100001, 10000⟩ 18 = false ∧ valid ⟨-1, 10000⟩ 18 = false ∧
    ∀ raw : BitVec 16, valid (voltageOf raw) 18 = true ↔ raw.toNat ≤ 10000

/-- R163. `DevText` of a device id: the four plain decimal numerals joined by one space, 7 to 15 characters. -/
def Obligations.DevTextIsPlainDecimals : Prop :=
  ∀ d : Vector Byte 4, devText d = Nat.repr d[0].toNat ++ " " ++ Nat.repr d[1].toNat ++ " " ++ Nat.repr d[2].toNat ++
      " " ++ Nat.repr d[3].toNat ∧ 7 ≤ (devText d).length ∧ (devText d).length ≤ 15

/-! ### Selection, encoding and the step -/

/-- R82 to R84. Selection: `esc` is tested before the byte's value, and in state Normal the four cases are told by the value. -/
def Obligations.SelectionFollowsThePriorities : Prop :=
  (∀ b : Byte, select true (.byte b) = .lit b) ∧
  (∀ b : Byte, (select false (.byte b) = .esc ↔ b = 0x08#8) ∧ (select false (.byte b) = .sof ↔ b = 0x0D#8) ∧
    (select false (.byte b) = .eof ↔ b = 0x0A#8) ∧
    (select false (.byte b) = .data b ↔ b ≠ 0x08#8 ∧ b ≠ 0x0D#8 ∧ b ≠ 0x0A#8)) ∧
  ∀ e : Bool, select e .clr = .clr ∧ select e .idle = .idle

/-- R51, R54. The ROM read as MemRead gives it: entry `i` is its 24-bit word over 10000, so between 0 and 1677.7215 ohms, and
there is an entry exactly at the indices below N_CAL. -/
def Obligations.RomEntriesAreWordsOverTenThousand : Prop :=
  ∀ (s : State) (i : Nat), (s.readRom i = none ↔ s.rom.length ≤ i) ∧
    ∀ c, s.readRom i = some c → (∃ w, s.rom[i]? = some w ∧ c.toRat = (w.toNat : Rat) / 10000) ∧
      0 ≤ c.toRat ∧ c.toRat ≤ 16777215 / 10000

/-- R222. Event formation and `in_ready`, said of the event a step takes (`State.event`) and of the sample at its edge: a reset
request, and nothing else, gives Clr, and takes `in_ready` to 0; a byte is accepted exactly when there is no reset
request and valid and ready are both 1, and it is the byte presented; any other edge is Idle. Without a reset request
`in_ready` is 0 exactly while a step that invoked PARSE is completing at a stalled edge. An EOF at `len` 18 sets the mark
that such a step is completing; no other operation touches it; and the edge keeps it exactly at a stalled edge without a
reset request, so an edge never sets it. That the sample's `stall` chooses the completing time is the model's way to
leave it open (notes/assumptions/7.md); that the ports are silent when no sample waits is the model's choice
(notes/assumptions/11.md). -/
def Obligations.EventFormation : Prop :=
  (∀ (s t : State), exec .eof s = .next t → s.len = 18#5 → t.completing = true) ∧
  (∀ (i : Instr) (s t : State), exec i s = .next t → ¬ (i = .eof ∧ s.len = 18#5) → t.completing = s.completing) ∧
  (∀ s : State, s.edge.completing = true ↔ s.completing = true ∧ s.sample.stall = true ∧ s.event ≠ .clr) ∧
  (∀ (s : State) (p : InPorts) (rest : List InPorts), s.inq = p :: rest → s.sample = p) ∧
  (∀ s : State, s.inq = [] → s.event = .idle) ∧
  ∀ s : State,
    let p := s.sample
    let ready := inReady s p
    (s.event = .clr ↔ p.rst = true ∨ p.clr = true) ∧
    (p.rst = true ∨ p.clr = true → ready = false) ∧
    (p.rst = false → p.clr = false → (ready = false ↔ s.completing = true ∧ p.stall = true)) ∧
    (∀ b, s.event = .byte b ↔ p.rst = false ∧ p.clr = false ∧ p.inValid = true ∧ ready = true ∧ p.inByte = b) ∧
    (s.event = .idle ↔ p.rst = false ∧ p.clr = false ∧ (p.inValid = false ∨ ready = false))

/-- R8, R82, R83. Words written out from the encodings of the table decode to their operations. Three things here are the
model's choice: that an 8-bit word is a byte presented with `esc` 0 (notes/assumptions/10.md); that the values on R232's
FRM to PAR and PAR to CAL interfaces serve as encodings of PARSE and LOOKUP, which the spec gives none; and that VALIDATE,
of which R200 says "Encoding: none" and for which R232 lists no interface, has the two operands of its table row as an
encoding (both notes/assumptions/13.md). -/
def Obligations.TableWordsDecode : Prop :=
  decodeTableWord 8 0b00001000 = some .esc ∧ decodeTableWord 8 0b00001101 = some .sof ∧
    decodeTableWord 8 0b00001010 = some .eof ∧ decodeTableWord 8 0b01000001 = some (.data 0x41#8) ∧
    decode (.boundary true (.byte 0b00001010#8)) = .ok (.lit 0x0A#8) ∧
    decode (.boundary true .clr) = .ok .clr ∧ decode (.boundary true .idle) = .ok .idle ∧
    decode (.calBus 0b000000000100111000100#21) = .ok (.lookup ⟨2500, 2048⟩) ∧
    decode (.valBus 0b0000111011111100#16 0b10010#5) = .ok (.validate ⟨3836, 1000⟩ 18) ∧
    decode (.parBus 0b00010#5 0x0102#144) = .ok (.parse (some [0x02#8, 0x01#8]))

/-- The model's convention for the bits of a table word above the byte (notes/assumptions/10.md): the step of a state with a
table word placed at its next edge runs the operation the decoder reads from that word. -/
def Obligations.PlacedWordIsRun : Prop :=
  ∀ (s : State) (nbits w : Nat) (i : Instr), s.len.toNat ≤ 19 → decodeTableWord nbits w = some i →
    step (s.withFetchWord nbits w) = exec i (s.withFetchWord nbits w).edge

/-- R84, R102. Decoding the encoding of a well-formed operation gives it back, with every operand at every value its encoding
admits. The spec gives PARSE, LOOKUP and VALIDATE no encoding (R151, R180, R200): that the values on R232's interfaces
serve PARSE and LOOKUP as encodings, and the two operands of its table row VALIDATE, for which R232 lists no interface,
is the model's choice (notes/assumptions/13.md), as is reading a stream back as a FRAME (notes/assumptions/16.md). -/
def Obligations.DecodeOfEncodeIsIdentity : Prop :=
  ∀ i : Instr, i.wf = true → decode (encode i) = .ok i

/-- R87. The stream of a FRAME has 20 to 38 bytes: 20 and one more for each data byte that is a control code. -/
def Obligations.FrameStreamLength : Prop :=
  ∀ f : FrameArgs, (frameStream f).length = 20 + ((encodePacket f).filter isControl).length ∧
    20 ≤ (frameStream f).length ∧ (frameStream f).length ≤ 38

/-- R220, R222. A step runs the operation decoded from `esc` and the event of the next edge, in the state after the edge: the
sample taken, the edge counted, `esc`, `len`, `BUF`, the ROM and the last signals as they were. -/
def Obligations.StepRunsTheDecodedOperation : Prop :=
  ∀ (s : State) (i : Instr), s.len.toNat ≤ 19 → decode (.boundary s.esc s.event) = .ok i →
    step s = exec i s.edge ∧ s.edge.esc = s.esc ∧ s.edge.len = s.len ∧ SameBuffer s.edge s ∧ s.edge.rom = s.rom ∧
      s.edge.inq = s.inq.tail ∧ s.edge.sig = s.sig ∧ s.edge.tick = s.tick + 1

/-- R220, R132. STEP is total: from every state in which `len` is in its range, a step has a next state. -/
def Obligations.EveryStepCompletes : Prop :=
  ∀ s : State, s.len.toNat ≤ 19 → ∃ t, step s = .next t

/-- R291, U10. In a state that only a block never reset can be in, a step is refused by name, but a reset request takes the
machine to `esc` 0 and `len` 0. That the model refuses there is its choice (notes/assumptions/6.md). -/
def Obligations.OnlyResetLeavesAnUndefinedState : Prop :=
  ∀ s : State, 19 < s.len.toNat →
    (s.event ≠ .clr → step s = .refused .undefinedBeforeReset) ∧
    (s.event = .clr → ∃ t, step s = .next t ∧ t.esc = false ∧ t.len = 0#5)

/-- R31, R290. Reset leaves `esc` 0 and `len` 0 and presents nothing; the ROM image is the instance's. (That `BUF` is zero at
reset is the model's choice, notes/assumptions/2.md, and is not stated.) -/
def Obligations.ResetState : Prop :=
  State.reset.esc = false ∧ State.reset.len = 0#5 ∧ State.reset.outPorts.outValid = false ∧
    State.reset.outPorts.frmDiscard = false ∧ State.reset.rom = Config.romImage

/-! ### Rules of the whole machine -/

/-- R28, R52. No operation writes the ROM: whatever an operation answers, the ROM is as it was; and so of a step. -/
def Obligations.NothingWritesTheRom : Prop :=
  (∀ (i : Instr) (s t : State), exec i s = .next t → t.rom = s.rom) ∧ ∀ s t : State, step s = .next t → t.rom = s.rom

/-- R129, R229. Only an EOF produces an output event: the output of a step is a Result exactly at a byte 0x0A received with
`esc` 0 and `len` 18, a Discard exactly at one with another `len`, and nothing otherwise. -/
def Obligations.OnlyEofProducesOutput : Prop :=
  ∀ (s t : State) (ev : Event), stepEvent ev s = .next t →
    ((∃ r adv, t.sig.out = .result r adv) ↔ ev = .byte 0x0A#8 ∧ s.esc = false ∧ s.len = 18#5) ∧
    (t.sig.out = .discard ↔ ev = .byte 0x0A#8 ∧ s.esc = false ∧ s.len ≠ 18#5)

/-- R227, R257. Nothing presented is held: what an operation does and presents does not depend on what was presented before it. -/
def Obligations.NothingPresentedIsHeld : Prop :=
  ∀ (i : Instr) (s : State) (sg : Signals), exec i (s.present sg) = exec i s

/-- R131, R260. After any EOF, whatever it emitted, the state is (0, 0). -/
def Obligations.AfterEofTheFramerIsFresh : Prop :=
  ∀ s : State, s.esc = false → ∃ t, stepEvent (.byte 0x0A#8) s = .next t ∧ t.esc = false ∧ t.len = 0#5

/-- R20. `esc` is set only by ESC and cleared only by LIT and CLR. -/
def Obligations.OnlyEscLitClrWriteTheFlag : Prop :=
  ∀ (i : Instr) (s t : State), exec i s = .next t →
    (s.esc = false → t.esc = true → i = .esc) ∧ (s.esc = true → t.esc = false → i = .clr ∨ ∃ b, i = .lit b)

/-- R32, R162, R226, R252 to R254. The invariant every step keeps: `len` in range, the ROM of a legal size, and on the output
nothing, a discard, a valid reading that is the decode of its own raw packet, or InvalidSensorData. -/
def Obligations.StepKeepsTheInvariant : Prop :=
  ∀ s t : State, Inv s → step s = .next t → Inv t

/-- The invariant holds at reset, for the ROM of any instance (R7, R31). -/
def Obligations.ResetHasTheInvariant : Prop := Inv State.reset

/-- R30. The hardware's finite state answers as the source's unbounded buffer does: from states that the abstraction relates,
over every event sequence, the outputs are the same and the end states are related; and the reset state is related to a
fresh FrameDecoder. -/
def Obligations.HardwareRefinesTheSource : Prop :=
  (∀ (evs : List Event) (s : State) (d : SourceState), Abstracts d s →
    ∃ t, feed evs s = some (t, (sourceFeed s.rom evs d).2) ∧ Abstracts (sourceFeed s.rom evs d).1 t) ∧
  Abstracts SourceState.fresh State.reset

/-- R22, R25. No operation reads a register `BUF[k]` with `k` at or above `len`: two states that differ only there give the same
outputs over every event sequence, so what `BUF` holds at reset is never observable. -/
def Obligations.StaleBufferIsUnobservable : Prop :=
  ∀ (evs : List Event) (s s' : State), LenLegal s → SameButStale s s' →
    ∃ t t' outs, feed evs s = some (t, outs) ∧ feed evs s' = some (t', outs) ∧ SameButStale t t'

/-- R103. Round trip: from any state in Normal, the stream of a FRAME, and whatever waits after it, gives nothing at each byte
but the last and at the last exactly the PARSE result on `Encode` of the arguments; and PARSE extracts the arguments. -/
def Obligations.FrameRoundTrip : Prop :=
  ∀ (f : FrameArgs) (s : State), s.esc = false → s.len.toNat ≤ 19 →
    outputs (frameStream f).length { s with inq := (frameStream f).map bytePorts ++ s.inq } =
      List.replicate ((frameStream f).length - 1) .nothing ++ [(parse s.rom (some (encodePacket f))).out] ∧
    tempRawOf (encodePacket f) = f.temp ∧ devBytes (encodePacket f) = f.dev ∧ rtdRawOf (encodePacket f) = f.rtd ∧
    tcRawOf (encodePacket f) = f.tc ∧ battRawOf (encodePacket f) = f.batt

/-- R121, R133. Idle events do not matter: over any event sequence the events other than Idle alone give the same outputs, but
for the nothings of the idle events, and the same `esc`, `len` and `BUF`. -/
def Obligations.IdleEventsDoNotMatter : Prop :=
  ∀ (evs : List Event) (s : State), ∃ t t' outs outs', feed evs s = some (t, outs) ∧
    feed (evs.filter (· ≠ .idle)) s = some (t', outs') ∧ outs.filter (· ≠ .nothing) = outs'.filter (· ≠ .nothing) ∧
    t.esc = t'.esc ∧ t.len = t'.len ∧ SameBuffer t t'

/-- R220, R222, R223. Bytes that wait at the input, one sample each, are fed: the machine's steps over them give the outputs
of the fold of STEP over those bytes as events, and end with the registers, the ROM and the signals the fold ends with,
and with what waited behind them. (Samples of every other kind: RunIsTheFoldOfStep.) -/
def Obligations.QueuedBytesAreFed : Prop :=
  ∀ (bytes : List Byte) (s : State), s.len.toNat ≤ 19 →
    let s' := { s with inq := bytes.map bytePorts ++ s.inq }
    ∃ t u, feed (byteEvents bytes) s = some (t, outputs bytes.length s') ∧
      Sys2Proof.core.run bytes.length s' = .next u ∧ SameBlock u t ∧ u.inq = s.inq

/-- R86, R101. Stuffing is undone: from Normal, feeding `Stuff` of a byte sequence gives no output and appends exactly those
bytes, ending in Normal as feeding the bytes through LIT and DATA one by one would: `len` counts them, saturating at 19,
and each byte that found room stands at its offset. -/
def Obligations.StuffedBytesAreAppended : Prop :=
  ∀ (bytes : List Byte) (s : State), s.esc = false → s.len.toNat ≤ 19 →
    ∃ t outs, feed (byteEvents (stuffAll bytes)) s = some (t, outs) ∧ (∀ o ∈ outs, o = OutEvent.nothing) ∧ t.esc = false ∧
      t.len.toNat = min (s.len.toNat + bytes.length) 19 ∧ t.rom = s.rom ∧
      ∀ k : Fin 18, t.readBuf k =
        if s.len.toNat ≤ k.val then (bytes[k.val - s.len.toNat]?).getD (s.readBuf k) else s.readBuf k

/-- R130. No frame-start is needed: 18 bytes, none of them a control code, fed from (0, 0), then 0x0A, emit the PARSE result
on those bytes; any other number of them emits a discard (R131, R303). -/
def Obligations.NoFrameStartNeeded : Prop :=
  ∀ (bytes : List Byte) (s : State), s.esc = false → s.len = 0#5 → (∀ b ∈ bytes, isControl b = false) →
    ∃ t, feed (byteEvents (bytes ++ [0x0A#8])) s = some (t, List.replicate bytes.length .nothing ++
      [if bytes.length = 18 then (parse s.rom (some bytes)).out else .discard]) ∧ t.esc = false ∧ t.len = 0#5

/-- R220. The observable behaviour of a run from any state: an output event is observed at index `k` exactly when the run
reaches a state `u` after `k` steps, the step from `u` presents that output, and it is not `None`; and the index is that
of the input event that step took. -/
def Obligations.ObservableOutputsAreIndexed : Prop :=
  ∀ (n : Nat) (s : State) (k : Nat) (o : OutEvent), (k, o) ∈ observable (outputs n s) ↔
    k < n ∧ o ≠ .nothing ∧ ∃ u t : State, Sys2Proof.core.run k s = .next u ∧ step u = .next t ∧ t.sig.out = o ∧
      (events n s)[k]? = some u.event

/-! ### The ports -/

/-- R225, R256. The output ports: `out_valid` with a Result alone, `frm_discard` with a Discard alone, never both; the status
codes; the order of the advisory bits. -/
def Obligations.OutputPortsOfEvents : Prop :=
  ∀ s : State,
    (s.outPorts.outValid = true ↔ ∃ r adv, s.sig.out = .result r adv) ∧
    (s.outPorts.frmDiscard = true ↔ s.sig.out = .discard) ∧
    ∀ r adv, s.sig.out = .result r adv →
      (s.outPorts.outStatus = 0#2 ↔ ∃ rd, r = .ok rd) ∧ (s.outPorts.outStatus = 1#2 ↔ r = .err .invalidLength) ∧
      (s.outPorts.outStatus = 2#2 ↔ r = .err .invalidSensorValue) ∧ (s.outPorts.outStatus = 3#2 ↔ r = .err .invalidSensorData) ∧
      s.outPorts.outAdv.getLsbD 0 = adv.tempAdv ∧ s.outPorts.outAdv.getLsbD 1 = adv.battAdv ∧
      s.outPorts.outAdv.getLsbD 2 = adv.calMiss

/-- R225, R226. The field ports of a reading lose nothing: each field of a delivered reading can be read off the ports, the
temperature as a signed 16-bit number where it lies in that port's range, and byte `k` in bits `8k+7 : 8k`. -/
def Obligations.FieldPortsLoseNothing : Prop :=
  ∀ (s : State) (r : Reading) (adv : Adv), s.sig.out = .result (.ok r) adv → r.rawPacket.length = 18 →
    -32768 ≤ r.rtdTemperature → r.rtdTemperature < 32768 →
    s.outPorts.outTemp = r.tempRaw ∧ s.outPorts.outRtdRes = r.resQ ∧ s.outPorts.outTc = r.tcRaw ∧ s.outPorts.outBatt = r.battRaw ∧
      s.outPorts.outRtdTemp.toInt = r.rtdTemperature ∧
      (∀ k : Fin 4, s.outPorts.outDev.extractLsb' (8 * k.val) 8 = r.dev[k]) ∧
      ∀ k : Fin 18, s.outPorts.outRaw.extractLsb' (8 * k.val) 8 = r.rawPacket.getD k.val 0#8

/-- R232. The internal interfaces at an EOF that hands a packet over: one FRM to PAR pulse with length 18 and the buffer's
bytes; one PAR to CAL request with `res_q`; and the answer, `cal_err` 1 with an empty ROM, else `cal_t` the temperature
on 16 bits. -/
def Obligations.InternalInterfacesAtHandOver : Prop :=
  ∀ s : State, s.len = 18#5 → ∃ t, exec .eof s = .next t ∧ t.busPorts.pktValid = true ∧ t.busPorts.pktLen = 18#5 ∧
    (∀ k : Fin 18, t.busPorts.pktBytes.extractLsb' (8 * k.val) 8 = s.readBuf k) ∧ t.busPorts.calReq = true ∧
    t.busPorts.calR.toNat = 25 * ((s.readBuf 11).toNat + 256 * (s.readBuf 12).toNat) ∧ t.busPorts.calDone = true ∧
    (t.busPorts.calErr = 1#1 ↔ s.rom = []) ∧
    ∀ v, lookup s.rom ⟨t.busPorts.calR.toNat, 2048⟩ = .ok v → t.busPorts.calErr = 0#1 ∧ t.busPorts.calT = BitVec.ofInt 16 v

/-! ### Runs of the machine -/

/-- R220, R222. A run of the machine is the fold of STEP: over any number of steps from any state with `len` in range,
whatever samples wait there (reset requests, no byte, bytes, stalled edges), the run completes with one event and
one sample a step, gives the outputs of the fold of STEP over its events, and ends with the registers, the ROM and the
signals that fold ends with. -/
def Obligations.RunIsTheFoldOfStep : Prop :=
  ∀ (n : Nat) (s : State), s.len.toNat ≤ 19 →
    ∃ t u, feed (events n s) s = some (t, outputs n s) ∧ Sys2Proof.core.run n s = .next u ∧ SameBlock u t ∧
      (events n s).length = n ∧ u.inq = s.inq.drop n
end

