-- ==== Sys2Proof/Laws/State.lean ====
section
/-! SUPPORT. One lemma per field per named update of the state, so that no proof unfolds a record update. -/

namespace Sys2Proof.Machine

variable (s : State)

@[simp] theorem State.setEsc_esc (v : Bool) : (s.setEsc v).esc = v := rfl
@[simp] theorem State.setEsc_len (v : Bool) : (s.setEsc v).len = s.len := rfl
@[simp] theorem State.setEsc_buf (v : Bool) : (s.setEsc v).buf = s.buf := rfl
@[simp] theorem State.setEsc_rom (v : Bool) : (s.setEsc v).rom = s.rom := rfl
@[simp] theorem State.setEsc_inq (v : Bool) : (s.setEsc v).inq = s.inq := rfl
@[simp] theorem State.setEsc_completing (v : Bool) : (s.setEsc v).completing = s.completing := rfl
@[simp] theorem State.setEsc_sig (v : Bool) : (s.setEsc v).sig = s.sig := rfl
@[simp] theorem State.setEsc_tick (v : Bool) : (s.setEsc v).tick = s.tick := rfl

@[simp] theorem State.setLen_esc (n : BitVec 5) : (s.setLen n).esc = s.esc := rfl
@[simp] theorem State.setLen_len (n : BitVec 5) : (s.setLen n).len = n := rfl
@[simp] theorem State.setLen_buf (n : BitVec 5) : (s.setLen n).buf = s.buf := rfl
@[simp] theorem State.setLen_rom (n : BitVec 5) : (s.setLen n).rom = s.rom := rfl
@[simp] theorem State.setLen_inq (n : BitVec 5) : (s.setLen n).inq = s.inq := rfl
@[simp] theorem State.setLen_completing (n : BitVec 5) : (s.setLen n).completing = s.completing := rfl
@[simp] theorem State.setLen_sig (n : BitVec 5) : (s.setLen n).sig = s.sig := rfl
@[simp] theorem State.setLen_tick (n : BitVec 5) : (s.setLen n).tick = s.tick := rfl

@[simp] theorem State.beginParse_esc : s.beginParse.esc = s.esc := rfl
@[simp] theorem State.beginParse_len : s.beginParse.len = s.len := rfl
@[simp] theorem State.beginParse_buf : s.beginParse.buf = s.buf := rfl
@[simp] theorem State.beginParse_rom : s.beginParse.rom = s.rom := rfl
@[simp] theorem State.beginParse_inq : s.beginParse.inq = s.inq := rfl
@[simp] theorem State.beginParse_completing : s.beginParse.completing = true := rfl
@[simp] theorem State.beginParse_sig : s.beginParse.sig = s.sig := rfl
@[simp] theorem State.beginParse_tick : s.beginParse.tick = s.tick := rfl

@[simp] theorem State.writeBuf_esc (k : Fin 18) (b : Byte) : (s.writeBuf k b).esc = s.esc := rfl
@[simp] theorem State.writeBuf_len (k : Fin 18) (b : Byte) : (s.writeBuf k b).len = s.len := rfl
@[simp] theorem State.writeBuf_buf (k : Fin 18) (b : Byte) : (s.writeBuf k b).buf = s.buf.set k b := rfl
@[simp] theorem State.writeBuf_rom (k : Fin 18) (b : Byte) : (s.writeBuf k b).rom = s.rom := rfl
@[simp] theorem State.writeBuf_inq (k : Fin 18) (b : Byte) : (s.writeBuf k b).inq = s.inq := rfl
@[simp] theorem State.writeBuf_completing (k : Fin 18) (b : Byte) : (s.writeBuf k b).completing = s.completing := rfl
@[simp] theorem State.writeBuf_sig (k : Fin 18) (b : Byte) : (s.writeBuf k b).sig = s.sig := rfl
@[simp] theorem State.writeBuf_tick (k : Fin 18) (b : Byte) : (s.writeBuf k b).tick = s.tick := rfl

@[simp] theorem State.present_esc (sg : Signals) : (s.present sg).esc = s.esc := rfl
@[simp] theorem State.present_len (sg : Signals) : (s.present sg).len = s.len := rfl
@[simp] theorem State.present_buf (sg : Signals) : (s.present sg).buf = s.buf := rfl
@[simp] theorem State.present_rom (sg : Signals) : (s.present sg).rom = s.rom := rfl
@[simp] theorem State.present_inq (sg : Signals) : (s.present sg).inq = s.inq := rfl
@[simp] theorem State.present_completing (sg : Signals) : (s.present sg).completing = s.completing := rfl
@[simp] theorem State.present_sig (sg : Signals) : (s.present sg).sig = sg := rfl
@[simp] theorem State.present_tick (sg : Signals) : (s.present sg).tick = s.tick := rfl

@[simp] theorem State.quiet_esc : s.quiet.esc = s.esc := rfl
@[simp] theorem State.quiet_len : s.quiet.len = s.len := rfl
@[simp] theorem State.quiet_buf : s.quiet.buf = s.buf := rfl
@[simp] theorem State.quiet_rom : s.quiet.rom = s.rom := rfl
@[simp] theorem State.quiet_inq : s.quiet.inq = s.inq := rfl
@[simp] theorem State.quiet_completing : s.quiet.completing = s.completing := rfl
@[simp] theorem State.quiet_sig : s.quiet.sig = Signals.quiet := rfl
@[simp] theorem State.quiet_tick : s.quiet.tick = s.tick := rfl

@[simp] theorem State.emitDiscard_esc : s.emitDiscard.esc = s.esc := rfl
@[simp] theorem State.emitDiscard_len : s.emitDiscard.len = s.len := rfl
@[simp] theorem State.emitDiscard_buf : s.emitDiscard.buf = s.buf := rfl
@[simp] theorem State.emitDiscard_rom : s.emitDiscard.rom = s.rom := rfl
@[simp] theorem State.emitDiscard_inq : s.emitDiscard.inq = s.inq := rfl
@[simp] theorem State.emitDiscard_completing : s.emitDiscard.completing = s.completing := rfl
@[simp] theorem State.emitDiscard_sig : s.emitDiscard.sig = { Signals.quiet with out := .discard } := rfl
@[simp] theorem State.emitDiscard_tick : s.emitDiscard.tick = s.tick := rfl

@[simp] theorem State.enqueue_esc (ps : List InPorts) : (s.enqueue ps).esc = s.esc := rfl
@[simp] theorem State.enqueue_len (ps : List InPorts) : (s.enqueue ps).len = s.len := rfl
@[simp] theorem State.enqueue_buf (ps : List InPorts) : (s.enqueue ps).buf = s.buf := rfl
@[simp] theorem State.enqueue_rom (ps : List InPorts) : (s.enqueue ps).rom = s.rom := rfl
@[simp] theorem State.enqueue_inq (ps : List InPorts) : (s.enqueue ps).inq = ps ++ s.inq := rfl
@[simp] theorem State.enqueue_completing (ps : List InPorts) : (s.enqueue ps).completing = s.completing := rfl
@[simp] theorem State.enqueue_sig (ps : List InPorts) : (s.enqueue ps).sig = s.sig := rfl
@[simp] theorem State.enqueue_tick (ps : List InPorts) : (s.enqueue ps).tick = s.tick := rfl

@[simp] theorem State.edge_esc : s.edge.esc = s.esc := rfl
@[simp] theorem State.edge_len : s.edge.len = s.len := rfl
@[simp] theorem State.edge_buf : s.edge.buf = s.buf := rfl
@[simp] theorem State.edge_rom : s.edge.rom = s.rom := rfl
@[simp] theorem State.edge_inq : s.edge.inq = s.inq.tail := rfl
@[simp] theorem State.edge_completing : s.edge.completing = (stalled s s.sample && !resetRequest s.sample) := rfl
@[simp] theorem State.edge_sig : s.edge.sig = s.sig := rfl
@[simp] theorem State.edge_tick : s.edge.tick = s.tick + 1 := rfl

@[simp] theorem State.setEsc_readBuf (v : Bool) (j : Fin 18) : (s.setEsc v).readBuf j = s.readBuf j := rfl
@[simp] theorem State.setLen_readBuf (n : BitVec 5) (j : Fin 18) : (s.setLen n).readBuf j = s.readBuf j := rfl
@[simp] theorem State.beginParse_readBuf (j : Fin 18) : s.beginParse.readBuf j = s.readBuf j := rfl
@[simp] theorem State.present_readBuf (sg : Signals) (j : Fin 18) : (s.present sg).readBuf j = s.readBuf j := rfl
@[simp] theorem State.quiet_readBuf (j : Fin 18) : s.quiet.readBuf j = s.readBuf j := rfl
@[simp] theorem State.emitDiscard_readBuf (j : Fin 18) : s.emitDiscard.readBuf j = s.readBuf j := rfl
@[simp] theorem State.enqueue_readBuf (ps : List InPorts) (j : Fin 18) : (s.enqueue ps).readBuf j = s.readBuf j := rfl
@[simp] theorem State.edge_readBuf (j : Fin 18) : s.edge.readBuf j = s.readBuf j := rfl

/-- Read after write, at the same offset and at another. -/
theorem State.writeBuf_readBuf (k j : Fin 18) (b : Byte) :
    (s.writeBuf k b).readBuf j = if j = k then b else s.readBuf j := by
  simp only [State.readBuf, State.writeBuf, Fin.getElem_fin, Vector.getElem_set]
  by_cases h : j = k
  · simp [h]
  · have : k.val ≠ j.val := fun e => h (Fin.ext e.symm)
    simp [h, this]

@[simp] theorem State.writeBuf_readBuf_self (k : Fin 18) (b : Byte) : (s.writeBuf k b).readBuf k = b := by
  simp [State.writeBuf_readBuf]

theorem State.writeBuf_readBuf_other (k j : Fin 18) (b : Byte) (h : j ≠ k) :
    (s.writeBuf k b).readBuf j = s.readBuf j := by
  simp [State.writeBuf_readBuf, h]

/-- The RawPacket is the buffer read in offset order. -/
theorem State.packet_eq : s.packet = (List.finRange 18).map s.readBuf := by
  apply List.ext_getElem
  · simp [State.packet]
  · intro i h1 h2
    simp [State.packet, State.readBuf]

@[simp] theorem State.packet_length : s.packet.length = 18 := by simp [State.packet]

theorem State.packet_getD (k : Fin 18) : s.packet.getD k.val 0#8 = s.readBuf k := by
  have h : k.val < s.packet.length := by simp
  rw [List.getD_eq_getElem _ _ h]
  simp [State.packet, State.readBuf]

/-! The fields at reset. -/
@[simp] theorem State.reset_esc : State.reset.esc = false := rfl
@[simp] theorem State.reset_len : State.reset.len = 0#5 := rfl
@[simp] theorem State.reset_rom : State.reset.rom = Config.romImage := rfl
@[simp] theorem State.reset_inq : State.reset.inq = [] := rfl
@[simp] theorem State.reset_sig : State.reset.sig = Signals.quiet := rfl
@[simp] theorem State.reset_completing : State.reset.completing = false := rfl

end Sys2Proof.Machine
end

