-- ==== Sys2Proof/Laws/Ops.lean ====
section
/-! SUPPORT. What each shared operation can do, said once: APPEND, LOOKUP's scan, the ways PARSE ends, and the step. -/

namespace Sys2Proof.Machine

open Sys2Proof

variable (s : State)

/-! ### APPEND -/

/-- APPEND stores and counts, or, with no room, sets `len` to 19 and stores nothing. -/
theorem State.append_cases (b : Byte) :
    (∃ k : Fin 18, s.appendIndex = some k ∧ s.len.toNat = k.val ∧ s.append b = (s.writeBuf k b).setLen (s.len + 1)) ∨
    (s.appendIndex = none ∧ 18 ≤ s.len.toNat ∧ s.append b = s.setLen 19#5) := by
  by_cases h : s.len.toNat < 18
  · exact .inl ⟨⟨s.len.toNat, h⟩, by simp [State.appendIndex, h], rfl, by simp [State.append, State.appendIndex, h]⟩
  · exact .inr ⟨by simp [State.appendIndex, h], by omega, by simp [State.append, State.appendIndex, h, Config.lenSat]⟩

@[simp] theorem State.append_esc (b : Byte) : (s.append b).esc = s.esc := by
  obtain ⟨k, -, -, h⟩ | ⟨-, -, h⟩ := s.append_cases b <;> simp [h]

@[simp] theorem State.append_rom (b : Byte) : (s.append b).rom = s.rom := by
  obtain ⟨k, -, -, h⟩ | ⟨-, -, h⟩ := s.append_cases b <;> simp [h]

@[simp] theorem State.append_inq (b : Byte) : (s.append b).inq = s.inq := by
  obtain ⟨k, -, -, h⟩ | ⟨-, -, h⟩ := s.append_cases b <;> simp [h]

@[simp] theorem State.append_completing (b : Byte) : (s.append b).completing = s.completing := by
  obtain ⟨k, -, -, h⟩ | ⟨-, -, h⟩ := s.append_cases b <;> simp [h]

@[simp] theorem State.append_sig (b : Byte) : (s.append b).sig = s.sig := by
  obtain ⟨k, -, -, h⟩ | ⟨-, -, h⟩ := s.append_cases b <;> simp [h]

@[simp] theorem State.append_tick (b : Byte) : (s.append b).tick = s.tick := by
  obtain ⟨k, -, -, h⟩ | ⟨-, -, h⟩ := s.append_cases b <;> simp [h]

/-- Counting a stored byte does not wrap. -/
theorem State.len_succ_toNat (h : s.len.toNat < 18) : (s.len + 1).toNat = s.len.toNat + 1 := by
  rw [BitVec.toNat_add]
  simp
  omega

/-- APPEND leaves `len` in its range, from any state. -/
theorem State.append_len_le (b : Byte) : (s.append b).len.toNat ≤ 19 := by
  obtain ⟨k, -, hk, h⟩ | ⟨-, -, h⟩ := s.append_cases b
  · have := s.len_succ_toNat (by omega)
    rw [h, State.setLen_len]
    omega
  · simp [h]

/-! ### LOOKUP -/

/-- The scan answers the best index so far or an index it has still to look at. -/
theorem scan_range (r : Frac) (ws : List RomWord) (i best bestd : Nat) :
    scan r ws i best bestd = best ∨ (i ≤ scan r ws i best bestd ∧ scan r ws i best bestd < i + ws.length) := by
  induction ws generalizing i best bestd with
  | nil => simp [scan]
  | cons w ws ih =>
    simp only [scan, List.length_cons]
    split
    · obtain h | h := ih (i + 1) i (distance r w) <;> omega
    · obtain h | h := ih (i + 1) best bestd <;> omega

/-- The two ways LOOKUP ends. -/
theorem lookup_cases (rom : List RomWord) (r : Frac) :
    (lookup rom r = .invalidInput ∧ (rom = [] ∨ r.isNumber = false ∨ r.num < 0)) ∨
    (∃ w ws, rom = w :: ws ∧ r.isNumber = true ∧ 0 ≤ r.num ∧
      lookup rom r = .ok ((scan r ws 1 0 (distance r w) : Nat) - Config.tOffset)) := by
  cases rom with
  | nil => exact .inl ⟨rfl, .inl rfl⟩
  | cons w ws =>
    by_cases h : r.isNumber = true ∧ 0 ≤ r.num
    · exact .inr ⟨w, ws, rfl, h.1, h.2, by simp [lookup, h.1, Int.not_lt.mpr h.2]⟩
    · refine .inl ⟨?_, ?_⟩
      · have : (!r.isNumber || decide (r.num < 0)) = true := by
          rw [Bool.or_eq_true, Bool.not_eq_true', decide_eq_true_eq]
          by_cases h1 : r.isNumber = true
          · exact .inr (by simpa [h1] using h)
          · exact .inl (by simpa using h1)
        simp [lookup, this]
      · by_cases h1 : r.isNumber = true
        · exact .inr (.inr (by simp_all))
        · exact .inr (.inl (by simp_all))

/-! ### PARSE -/

/-- The step-4 error of PARSE cannot fire: an RTD resistance is never below 0. -/
theorem resistanceOf_nonneg (raw : BitVec 16) : Frac.less (resistanceOf raw) ⟨0, 1⟩ = false := by
  simp only [Frac.less, resistanceOf]
  have : (0 : Int) ≤ (raw.toNat : Int) * (Config.rtdNum : Nat) := by positivity
  simpa using this

/-- The three ways PARSE ends. -/
theorem parse_cases (rom : List RomWord) (pkt : Option (List Byte)) :
    (parse rom pkt = raiseError .invalidLength Progress.start ∧ ∀ bytes, pkt = some bytes → bytes.length ≠ 18) ∨
    (∃ bytes, pkt = some bytes ∧ bytes.length = 18 ∧ parse rom pkt = parseFromLookup rom bytes (tempAdvOf (tempRawOf bytes))) := by
  cases pkt with
  | none => exact .inl ⟨rfl, by simp⟩
  | some bytes =>
    by_cases h : bytes.length = 18
    · exact .inr ⟨bytes, rfl, h, by simp [parse, Config.frameLen, h, parseFields, resistanceOf_nonneg]⟩
    · exact .inl ⟨by simp [parse, Config.frameLen, h], by intro b hb; cases hb; exact h⟩

/-- PARSE presents nothing on the FRM to PAR interface; EOF does. -/
@[simp] theorem parse_pkt (rom : List RomWord) (pkt : Option (List Byte)) : (parse rom pkt).pkt = none := by
  obtain ⟨h, -⟩ | ⟨bytes, -, -, h⟩ := parse_cases rom pkt
  · rw [h]; rfl
  · rw [h]
    simp only [parseFromLookup]
    split <;> rfl

/-! ### The edge and the step -/

/-- The edge changes no register and no byte of the buffer. -/
theorem State.edge_frame : s.edge.esc = s.esc ∧ s.edge.len = s.len ∧ s.edge.buf = s.buf ∧ s.edge.rom = s.rom :=
  ⟨rfl, rfl, rfl, rfl⟩

/-- When the spec defines the next step. -/
theorem State.defined_iff : s.defined = true ↔ s.len.toNat ≤ 19 ∨ s.event = .clr := by
  rw [State.defined, Bool.or_eq_true, decide_eq_true_eq, beq_iff_eq]
  exact Iff.rfl

/-- What a step that has a next state did: it ran the selected operation in the state after the edge. -/
theorem step_cases {s t : State} (h : step s = .next t) :
    (s.len.toNat ≤ 19 ∨ s.event = .clr) ∧ exec (select s.esc s.event) s.edge = .next t := by
  by_cases hd : s.defined = true
  · rw [step, if_pos hd] at h
    exact ⟨s.defined_iff.mp hd, h⟩
  · rw [step, if_neg hd] at h
    exact absurd h (by simp)

/-- No operation faults or refuses: `exec` answers a next state, whose signals the operation alone decides. -/
theorem exec_never_stops (i : Instr) (s : State) : (∀ r, exec i s ≠ .fault r) ∧ ∀ r, exec i s ≠ .refused r := by
  constructor
  · exact fun r => nomatch r
  · intro r
    cases i <;>
      simp only [exec, execClr, execIdle, execLit, execEsc, execSof, execEof, execData, execParse, execLookup, execValidate,
        execFrame, ne_eq, reduceCtorEq, not_false_eq_true]
    split <;> simp

end Sys2Proof.Machine
end

