-- ==== Sys2Proof/Laws/Framer.lean ====
section
/-! SUPPORT. What one STEP does, said once: an equation for each operation an event can select, and the case list of events.
Later proofs cite these and unfold neither `select` nor a meaning. -/

namespace Sys2Proof.Machine

open Sys2Proof

variable {s : State}

theorem isControl_iff (b : Byte) : isControl b = true ↔ b = 0x08#8 ∨ b = 0x0D#8 ∨ b = 0x0A#8 := by
  simp [isControl, Config.escCode, Config.sofCode, Config.eofCode, or_assoc]

theorem stepEvent_clr : stepEvent .clr s = .next ((s.setEsc false).setLen 0#5).quiet := rfl

theorem stepEvent_idle : stepEvent .idle s = .next s.quiet := rfl

theorem stepEvent_lit (b : Byte) (he : s.esc = true) :
    stepEvent (.byte b) s = .next ((s.append b).setEsc false).quiet := by
  simp [stepEvent, select, selectByte, he, exec, execLit]

theorem stepEvent_esc (he : s.esc = false) : stepEvent (.byte 0x08#8) s = .next (s.setEsc true).quiet := by
  simp [stepEvent, select, selectByte, he, exec, execEsc, Config.escCode]

theorem stepEvent_sof (he : s.esc = false) : stepEvent (.byte 0x0D#8) s = .next (s.setLen 0#5).quiet := by
  simp [stepEvent, select, selectByte, he, exec, execSof, Config.escCode, Config.sofCode]

theorem stepEvent_handOver (he : s.esc = false) (hl : s.len = 18#5) :
    stepEvent (.byte 0x0A#8) s = .next ((s.setLen 0#5).beginParse.present
      { parse s.rom (some s.packet) with pkt := some (packetPulse s) }) := by
  simp [stepEvent, select, selectByte, he, exec, execEof, hl, Config.escCode, Config.sofCode, Config.eofCode]

theorem stepEvent_discard (he : s.esc = false) (hl : s.len ≠ 18#5) :
    stepEvent (.byte 0x0A#8) s = .next (s.setLen 0#5).emitDiscard := by
  simp [stepEvent, select, selectByte, he, exec, execEof, hl, Config.escCode, Config.sofCode, Config.eofCode]

theorem stepEvent_data (b : Byte) (he : s.esc = false) (hb : isControl b = false) :
    stepEvent (.byte b) s = .next (s.append b).quiet := by
  simp only [isControl, Bool.or_eq_false_iff] at hb
  simp [stepEvent, select, selectByte, he, exec, execData, hb]

/-- Every event and state fall under one of the equations above. -/
theorem event_cases (ev : Event) (s : State) :
    ev = .clr ∨ ev = .idle ∨ (∃ b, ev = .byte b ∧ s.esc = true) ∨ (ev = .byte 0x08#8 ∧ s.esc = false) ∨
      (ev = .byte 0x0D#8 ∧ s.esc = false) ∨ (ev = .byte 0x0A#8 ∧ s.esc = false ∧ s.len = 18#5) ∨
      (ev = .byte 0x0A#8 ∧ s.esc = false ∧ s.len ≠ 18#5) ∨ (∃ b, ev = .byte b ∧ s.esc = false ∧ isControl b = false) := by
  cases ev with
  | clr => simp
  | idle => simp
  | byte b =>
    cases he : s.esc with
    | true => simp
    | false =>
      cases hb : isControl b with
      | false => simp [hb]
      | true =>
        obtain rfl | rfl | rfl := (isControl_iff b).mp hb
        · simp
        · simp
        · by_cases hl : s.len = 18#5 <;> simp [hl]

/-- A STEP always has a next state. -/
theorem stepEvent_next (ev : Event) (s : State) : ∃ t, stepEvent ev s = .next t := by
  have h := exec_never_stops (select s.esc ev) s
  cases hs : stepEvent ev s with
  | next t => exact ⟨t, rfl⟩
  | fault r => exact absurd hs (h.1 r)
  | refused r => exact absurd hs (h.2 r)

@[simp] theorem feed_nil : feed [] s = some (s, []) := rfl

theorem feed_cons {ev : Event} {t : State} (h : stepEvent ev s = .next t) (evs : List Event) :
    feed (ev :: evs) s = (feed evs t).map fun r => (r.1, t.sig.out :: r.2) := by
  simp [feed, h]

/-- Feeding one sequence after another. -/
theorem feed_append (as bs : List Event) (s : State) :
    feed (as ++ bs) s = (feed as s).bind fun r => (feed bs r.1).map fun q => (q.1, r.2 ++ q.2) := by
  induction as generalizing s with
  | nil => simp
  | cons ev as ih =>
    obtain ⟨t, h⟩ := stepEvent_next ev s
    simp only [List.cons_append, feed_cons h, ih]
    cases feed as t with
    | none => rfl
    | some r => cases h2 : feed bs r.1 <;> simp [h2]

end Sys2Proof.Machine
end

