-- ==== Sys2Proof/Laws/Memory.lean ====
section
/-! SUPPORT. The block's two storage spaces (spec/20_memory.md R50, R51) under every operation: the ROM is never written, and the
frame buffer is written at APPEND's offset alone; and what the hypothesis CAL_NONMONO says of the ROM. Eighteen registers in a `Vector` are in one form by their type. -/

namespace Sys2Proof.Machine

open Sys2Proof

/-- Where an operation stores: DATA and LIT at APPEND's offset, every other operation nowhere. -/
def storeOffset (i : Instr) (s : State) : Option (Fin 18) :=
  match i with
  | .clr => none
  | .idle => none
  | .lit _ => s.appendIndex
  | .esc => none
  | .sof => none
  | .eof => none
  | .data _ => s.appendIndex
  | .parse _ => none
  | .lookup _ => none
  | .validate _ _ => none
  | .frame _ => none

/-- APPEND changes no byte but the one at its offset. -/
theorem State.append_readBuf_other (s : State) (b : Byte) (j : Fin 18) (h : s.appendIndex ≠ some j) :
    (s.append b).readBuf j = s.readBuf j := by
  obtain ⟨k, hk, -, e⟩ | ⟨-, -, e⟩ := s.append_cases b
  · rw [e, State.setLen_readBuf]
    exact s.writeBuf_readBuf_other k j b (fun hj => h (by rw [hk, hj]))
  · rw [e, State.setLen_readBuf]

/-- The frame of the buffer, for every operation at once. -/
theorem exec_readBuf {i : Instr} {s t : State} (h : exec i s = .next t) (j : Fin 18) (hj : storeOffset i s ≠ some j) :
    t.readBuf j = s.readBuf j := by
  cases i with
  | data b => cases h; exact s.append_readBuf_other b j hj
  | lit b => cases h; exact s.append_readBuf_other b j hj
  | eof =>
    by_cases hl : s.len = 18#5
    · simp only [exec, execEof, if_pos hl] at h; cases h; rfl
    · simp only [exec, execEof, if_neg hl] at h; cases h; rfl
  | clr => cases h; rfl
  | idle => cases h; rfl
  | esc => cases h; rfl
  | sof => cases h; rfl
  | parse pkt => cases h; rfl
  | lookup r => cases h; rfl
  | validate v n => cases h; rfl
  | frame f => cases h; rfl

/-- CAL_NONMONO gives two misordered pairs, one wholly before the other. -/
theorem calNonmono_pairs {rom : List RomWord} (h : Safety.CalNonmono rom) :
    ∃ i j k l, Safety.Misordered rom i j ∧ Safety.Misordered rom k l ∧ j < k := by
  obtain ⟨_, _, _, _, hlt, ⟨i, j, -, hj, h1⟩, ⟨k, l, hk, -, h2⟩, -⟩ := h
  exact ⟨i, j, k, l, h1, h2, by omega⟩

/-- CAL_NONMONO's first words: "the table is not monotonic". -/
theorem calNonmono_not_increasing {rom : List RomWord} (h : Safety.CalNonmono rom) : ¬ rom.Pairwise (· < ·) := by
  obtain ⟨i, j, -, -, ⟨hij, hj, hle⟩, -⟩ := calNonmono_pairs h
  intro hp
  have hlt := List.pairwise_iff_getElem.mp hp i j (by omega) hj hij
  rw [List.getD_eq_getElem _ _ hj, List.getD_eq_getElem _ _ (by omega : i < rom.length)] at hle
  rw [BitVec.lt_def] at hlt
  rw [BitVec.le_def] at hle
  omega

end Sys2Proof.Machine
end

