-- ==== Sys2Proof/Laws/PerInstr.lean ====
section
/-! SUPPORT. The family `TableRow`: the encoding of a well-formed operation satisfies its row of spec/opcode_table.json. -/

namespace Sys2Proof.Laws.TableRow

open Sys2Proof

/-- A row of format BYTE: the value of `esc`, the match and mask, and the bytes the row excludes. -/
structure ByteRow where
  esc      : Bool
  value    : Byte
  mask     : Byte
  excludes : List Byte
  deriving DecidableEq, Repr

/-- A row of the table, by its format: EVENT rows name an event, INTERNAL rows no input encoding, PSEUDO rows a stream. -/
inductive Row where
  | event (ev : Event)
  | byte (r : ByteRow)
  | internal
  | pseudo
  deriving DecidableEq, Repr

/-- The row of an operation. -/
def row : Instr → Row
  | .clr => .event .clr
  | .idle => .event .idle
  | .lit _ => .byte ⟨true, 0x00#8, 0x00#8, []⟩
  | .esc => .byte ⟨false, 0x08#8, 0xFF#8, []⟩
  | .sof => .byte ⟨false, 0x0D#8, 0xFF#8, []⟩
  | .eof => .byte ⟨false, 0x0A#8, 0xFF#8, []⟩
  | .data _ => .byte ⟨false, 0x00#8, 0x00#8, [0x08#8, 0x0D#8, 0x0A#8]⟩
  | .parse _ => .internal
  | .lookup _ => .internal
  | .validate _ _ => .internal
  | .frame _ => .pseudo

/-- What stands at an interface is what a row says. -/
def Row.admits : Row → Stimulus → Prop
  | .event e, .boundary _ ev => ev = e
  | .byte r, .boundary esc (.byte b) => esc = r.esc ∧ b &&& r.mask = r.value ∧ b ∉ r.excludes
  | .internal, .parBus _ _ => True
  | .internal, .calBus _ => True
  | .internal, .valBus _ _ => True
  | .pseudo, .wire _ => True
  | _, _ => False

/-- The encoding of a well-formed operation satisfies its row. -/
def Statement (i : Instr) : Prop := i.wf = true → (row i).admits (encode i)

theorem clr : Statement .clr := fun _ => rfl

theorem idle : Statement .idle := fun _ => rfl

theorem lit (b : Byte) : Statement (.lit b) := fun _ => by simp [row, Row.admits, encode]

theorem esc : Statement .esc := fun _ => by simp [row, Row.admits, encode, Config.escCode]

theorem sof : Statement .sof := fun _ => by simp [row, Row.admits, encode, Config.sofCode]

theorem eof : Statement .eof := fun _ => by simp [row, Row.admits, encode, Config.eofCode]

theorem data (b : Byte) : Statement (.data b) := fun h => by
  simp only [Instr.wf, Instr.wfData, isControl, Bool.not_eq_true', Bool.or_eq_false_iff, beq_eq_false_iff_ne] at h
  simpa [row, Row.admits, encode, and_assoc, Config.escCode, Config.sofCode, Config.eofCode] using h

theorem parse (pkt : Option (List Byte)) : Statement (.parse pkt) := fun _ => trivial

theorem lookup (r : Frac) : Statement (.lookup r) := fun _ => trivial

theorem validate (v : Frac) (n : Nat) : Statement (.validate v n) := fun _ => trivial

theorem frame (f : FrameArgs) : Statement (.frame f) := fun _ => trivial

end Sys2Proof.Laws.TableRow
end

