-- ==== Sys2Proof/Laws/Run.lean ====
section
/-! SUPPORT. Runs: what a run's events and outputs are one step at a time, that a STEP reads neither the input queue nor the
edge count, and what the observable outputs of a list of output events are. Later proofs cite these. -/

namespace Sys2Proof.Machine

open Sys2Proof Sys2Proof.Safety

variable {s t : State}

@[simp] theorem outputs_zero : outputs 0 s = [] := rfl
@[simp] theorem events_zero : events 0 s = [] := rfl

theorem outputs_succ (h : step s = .next t) (n : Nat) : outputs (n + 1) s = t.sig.out :: outputs n t := by
  simp [outputs, h]

theorem events_succ (h : step s = .next t) (n : Nat) : events (n + 1) s = s.event :: events n t := by
  simp [events, h]

/-- A run from a state whose step has a next state goes on there. -/
theorem coreRun_next (M : Host.Core) {s t : M.State} (h : M.step s = .next t) (n : Nat) : M.run (n + 1) s = M.run n t := by
  simp [Host.Core.run, h]

/-- A run goes no further than a step that is refused. -/
theorem coreRun_refused (M : Host.Core) {s : M.State} {r : M.Refusal} (h : M.step s = .refused r) (n : Nat) :
    M.run (n + 1) s = .refused r := by
  simp [Host.Core.run, h]

theorem run_succ (h : step s = .next t) (n : Nat) : Sys2Proof.core.run (n + 1) s = Sys2Proof.core.run n t :=
  coreRun_next Sys2Proof.core h n

theorem run_refused {r : Refusal} (h : step s = .refused r) (n : Nat) : Sys2Proof.core.run (n + 1) s = .refused r :=
  coreRun_refused Sys2Proof.core h n

/-- `len` stays in its range (R21, R32). -/
theorem stepEvent_len_le {ev : Event} (hl : s.len.toNat ≤ 19) (h : stepEvent ev s = .next t) : t.len.toNat ≤ 19 := by
  obtain rfl | rfl | ⟨b, rfl, he⟩ | ⟨rfl, he⟩ | ⟨rfl, he⟩ | ⟨rfl, he, h18⟩ | ⟨rfl, he, h18⟩ | ⟨b, rfl, he, hb⟩ := event_cases ev s
  · cases h; simp
  · cases h; exact hl
  · rw [stepEvent_lit b he] at h; cases h; exact s.append_len_le b
  · rw [stepEvent_esc he] at h; cases h; exact hl
  · rw [stepEvent_sof he] at h; cases h; simp
  · rw [stepEvent_handOver he h18] at h; cases h; simp
  · rw [stepEvent_discard he h18] at h; cases h; simp
  · rw [stepEvent_data b he hb] at h; cases h; exact s.append_len_le b

/-- APPEND in two states with the same registers. -/
theorem State.append_sameBlock {u v : State} (h : SameBlock u v) (b : Byte) : SameBlock (u.append b) (v.append b) := by
  obtain ⟨he, hl, hb, hr, hs⟩ := h
  have hi : u.appendIndex = v.appendIndex := by simp only [State.appendIndex, hl]
  refine ⟨by simp [he], ?_, fun k => ?_, by simp [hr], by simp [hs]⟩
  · simp only [State.append, hi]
    split <;> simp [hl]
  · simp only [State.append, hi]
    split
    · simp [State.writeBuf_readBuf, hb k]
    · exact hb k

/-- A STEP reads neither the input queue, nor the completing mark, nor the edge count: it does the same in two states whose
blocks are the same, and leaves both queues alone. -/
theorem stepEvent_sameBlock {u v : State} (h : SameBlock u v) (ev : Event) :
    ∃ u' v', stepEvent ev u = .next u' ∧ stepEvent ev v = .next v' ∧ SameBlock u' v' ∧ u'.inq = u.inq ∧ v'.inq = v.inq := by
  obtain ⟨he, hl, hb, hr, hs⟩ := h
  have hp : u.packet = v.packet := by rw [State.packet_eq, State.packet_eq, funext hb]
  obtain rfl | rfl | ⟨b, rfl, hv⟩ | ⟨rfl, hv⟩ | ⟨rfl, hv⟩ | ⟨rfl, hv, h18⟩ | ⟨rfl, hv, h18⟩ | ⟨b, rfl, hv, hc⟩ := event_cases ev v
  · exact ⟨_, _, rfl, rfl, ⟨rfl, rfl, hb, hr, rfl⟩, rfl, rfl⟩
  · exact ⟨_, _, rfl, rfl, ⟨he, hl, hb, hr, rfl⟩, rfl, rfl⟩
  · obtain ⟨-, hl', hb', hr', -⟩ := State.append_sameBlock ⟨he, hl, hb, hr, hs⟩ b
    exact ⟨_, _, stepEvent_lit b (he.trans hv), stepEvent_lit b hv, ⟨rfl, hl', hb', hr', rfl⟩, by simp, by simp⟩
  · exact ⟨_, _, stepEvent_esc (he.trans hv), stepEvent_esc hv, ⟨rfl, hl, hb, hr, rfl⟩, rfl, rfl⟩
  · exact ⟨_, _, stepEvent_sof (he.trans hv), stepEvent_sof hv, ⟨he, rfl, hb, hr, rfl⟩, rfl, rfl⟩
  · exact ⟨_, _, stepEvent_handOver (he.trans hv) (hl.trans h18), stepEvent_handOver hv h18,
      ⟨he, rfl, hb, hr, by simp [hr, hp, hl, packetPulse]⟩, rfl, rfl⟩
  · exact ⟨_, _, stepEvent_discard (he.trans hv) (fun e => h18 (hl.symm.trans e)), stepEvent_discard hv h18,
      ⟨he, rfl, hb, hr, rfl⟩, rfl, rfl⟩
  · obtain ⟨he', hl', hb', hr', -⟩ := State.append_sameBlock ⟨he, hl, hb, hr, hs⟩ b
    exact ⟨_, _, stepEvent_data b (he.trans hv) hc, stepEvent_data b hv hc, ⟨he', hl', hb', hr', rfl⟩, by simp, by simp⟩

/-- The machine's step with `len` in range is STEP on the event of the edge, in the state after the edge. -/
theorem step_eq_stepEvent (hl : s.len.toNat ≤ 19) : step s = stepEvent s.event s.edge := by
  rw [step, if_pos (s.defined_iff.mpr (.inl hl))]
  rfl

/-- A sample that brings a byte brings that byte, in every state. -/
theorem event_of_bytePorts {b : Byte} {rest : List InPorts} (h : s.inq = bytePorts b :: rest) : s.event = .byte b := by
  simp [State.event, State.sample, h, formEvent, inReady, resetRequest, stalled, bytePorts]

/-- The observable ones of a list of output events, with their places in it. -/
theorem mem_observable (outs : List OutEvent) (k : Nat) (o : OutEvent) :
    (k, o) ∈ observable outs ↔ outs[k]? = some o ∧ o ≠ .nothing := by
  simp only [observable, List.mem_filter, List.mem_map, bne_iff_ne, ne_eq]
  constructor
  · rintro ⟨⟨p, hp, h⟩, hn⟩
    cases h
    exact ⟨by simpa using List.mem_zipIdx_iff_getElem?.mp hp, hn⟩
  · rintro ⟨h, hn⟩
    exact ⟨⟨(o, k), by simpa using List.mem_zipIdx_iff_getElem?.mpr h, rfl⟩, hn⟩

end Sys2Proof.Machine
end

