-- ==== Sys2Proof/Tests/Slice0.lean ====
section
/-! SUPPORT. Tests of the model against spec/95_test_vectors.md, each with its vector's name; the ill-formed terms WellFormed
refuses; the words written out from the encodings; and a witness for the hypotheses of each statement. -/

namespace Sys2Proof.Tests

open Sys2Proof Sys2Proof.Machine Sys2Proof.Safety

/-- TESTROM (95_test_vectors.md section 0). -/
def testRom : List RomWord := [184932, 189260, 193580, 193580, 202200, 197890, 206500, 3902623]

/-- The packet of vectors S1, E5 and D1. -/
def d1 : List Byte := [0x00, 0xE8, 0x03, 0, 0, 0, 0, 0, 0, 0, 0, 0x64, 0, 0, 0, 0xFC, 0x0E, 0x00]

/-- The packet of vector D13: `batt_raw` = 10001. -/
def d13 : List Byte := [0, 0, 0, 0, 0, 0, 0, 0, 0, 0, 0, 0, 0, 0, 0, 0x11, 0x27, 0]

/-- The packet of vector D12: `batt_raw` = 10000. -/
def d12 : List Byte := [0, 0, 0, 0, 0, 0, 0, 0, 0, 0, 0, 0, 0, 0, 0, 0x10, 0x27, 0]

/-- The packet of vector D10: D1 with other reserved bytes. -/
def d10 : List Byte := [0x77, 0xE8, 0x03, 0, 0, 0x88, 0x99, 0, 0, 0, 0, 0x64, 0, 0, 0, 0xFC, 0x0E, 0xAB]

/-- The arguments of vector E6. -/
def e6 : FrameArgs := ⟨0x00030D08, #v[10, 13, 8, 255], 1638, 0x0A0A, 0x0A0D, 0xAA, 0x55, 0x08, 0x0D⟩

/-- A state (`esc`, `len`) with the packet of D1 in the buffer and TESTROM. -/
def st (esc : Bool) (len : BitVec 5) : State :=
  { esc := esc, len := len, buf := ⟨d1.toArray, rfl⟩, rom := testRom, inq := [], completing := false,
    sig := Signals.quiet, tick := 0 }

/-- The next state of an outcome. -/
def nextOf : Result → Option State
  | .next t => some t
  | .fault _ => none
  | .refused _ => none

/-- (`esc`, `len`), one byte of the buffer and the output after an operation. -/
def seen (k : Fin 18) (r : Result) : Option (Bool × Nat × Byte × OutEvent) :=
  (nextOf r).map fun t => (t.esc, t.len.toNat, t.readBuf k, t.sig.out)

/-! ### WellFormed refuses each kind of ill-formed term -/

theorem test_wf_data_control : Instr.wf (.data 0x0D) = false := by decide
theorem test_wf_packet_absent : Instr.wf (.parse none) = false := by decide
theorem test_wf_packet_long : Instr.wf (.parse (some (List.replicate 19 0))) = false := by decide
theorem test_wf_resistance_unit : Instr.wf (.lookup ⟨184932, 10000⟩) = false := by decide
theorem test_wf_resistance_negative : Instr.wf (.lookup ⟨-1, 2048⟩) = false := by decide
theorem test_wf_resistance_wide : Instr.wf (.lookup ⟨2097152, 2048⟩) = false := by decide
theorem test_wf_voltage_unit : Instr.wf (.validate ⟨100001, 10000⟩ 18) = false := by decide
theorem test_wf_voltage_negative : Instr.wf (.validate ⟨-1, 1000⟩ 18) = false := by decide
theorem test_wf_voltage_wide : Instr.wf (.validate ⟨65536, 1000⟩ 18) = false := by decide
theorem test_wf_length_wide : Instr.wf (.validate ⟨3836, 1000⟩ 32) = false := by decide
theorem test_wf_good : ([.clr, .idle, .lit 0x0A, .esc, .sof, .eof, .data 0x41, .parse (some d1), .lookup ⟨2500, 2048⟩,
    .validate ⟨3836, 1000⟩ 18, .frame e6] : List Instr).all Instr.wf = true := by decide

/-! ### Words written out from the spec's encodings -/

/-- R80: a reset request; bit 10 is `clr`, bit 11 `rst`. -/
theorem test_decode_clr : decodeTableWord 16 0b0000010000000000 = some .clr ∧
    decodeTableWord 16 0b0000100001000001 = some .clr := by decide
/-- R80: no byte presented; bit 9. -/
theorem test_decode_idle : decodeTableWord 16 0b0000001000000000 = some .idle := by decide
/-- The table's LIT row, "bbbbbbbb with esc = 1"; bit 8 is `esc`. -/
theorem test_decode_lit : decodeTableWord 16 0b0000000100001101 = some (.lit 0x0D) := by decide
/-- The table's ESC row, 00001000. -/
theorem test_decode_esc : decodeTableWord 8 0b00001000 = some .esc := by decide
/-- The table's SOF row, 00001101. -/
theorem test_decode_sof : decodeTableWord 8 0b00001101 = some .sof := by decide
/-- The table's EOF row, 00001010. -/
theorem test_decode_eof : decodeTableWord 8 0b00001010 = some .eof := by decide
/-- The table's DATA row, bbbbbbbb. -/
theorem test_decode_data : decodeTableWord 8 0b01000001 = some (.data 0x41) := by decide
/-- R232: `pkt_len` 18 and byte `k` of D1 in bits `8k+7 : 8k` of `pkt_bytes`. -/
theorem test_decode_parse :
    decode (.parBus 18#5 0x000EFC00000064000000000000000003E800#144) = .ok (.parse (some d1)) := by decide
/-- R232: `cal_r` is `res_q`. -/
theorem test_decode_lookup : decode (.calBus 2500#21) = .ok (.lookup ⟨2500, 2048⟩) := by decide
/-- The table's VALIDATE row: `batt_raw` and the packet length. -/
theorem test_decode_validate : decode (.valBus 3836#16 18#5) = .ok (.validate ⟨3836, 1000⟩ 18) := by decide
/-- R102: the stream of program P2 is the expansion of vector E6. -/
theorem test_decode_frame : decode (.wire [0x0D, 0xAA, 8, 8, 8, 0x0D, 3, 0, 0x55, 8, 8, 8, 0x0A, 8, 0x0D, 8, 8, 0xFF, 0x66,
    6, 8, 0x0A, 8, 0x0A, 8, 0x0D, 8, 0x0A, 8, 0x0D, 0x0A]) = .ok (.frame e6) := by decide
theorem test_decode_no_start : decode (.wire [0x41]) = .error .noFrameStart := by decide
theorem test_decode_no_end : decode (.wire [0x0D, 0x41]) = .error .noFrameEnd := by decide
theorem test_decode_start_in_body : decode (.wire [0x0D, 0x0D]) = .error .frameStartInBody := by decide
theorem test_decode_trailing : decode (.wire [0x0D, 0x0A, 0x00]) = .error .bytesAfterFrameEnd := by decide
theorem test_decode_short : decode (.wire [0x0D, 0x41, 0x0A]) = .error .wrongDataCount := by decide
theorem test_decode_word_too_wide : decodeTableWord 16 0x1000 = none ∧ decodeTableWord 8 0x108 = none := by decide
/-- Vector E6: `Encode`. -/
theorem test_encode_e6 : encodePacket e6 =
    [0xAA, 0x08, 0x0D, 0x03, 0x00, 0x55, 0x08, 0x0A, 0x0D, 0x08, 0xFF, 0x66, 0x06, 0x0A, 0x0A, 0x0D, 0x0A, 0x0D] := by decide

/-! ### One operation at a time -/

/-- F22. -/
theorem test_clr : seen 0 (exec .clr (st true 12)) = some (false, 0, 0x00, .nothing) := by decide
/-- F21. -/
theorem test_idle : seen 0 (exec .idle (st true 7)) = some (true, 7, 0x00, .nothing) := by decide
/-- F14: the buffer is not cleared. -/
theorem test_lit_sof : seen 4 (exec (.lit 0x0D) (st true 4)) = some (false, 5, 0x0D, .nothing) := by decide
/-- F16: dropped, and no frame end. -/
theorem test_lit_full : seen 17 (exec (.lit 0x0A) (st true 18)) = some (false, 19, 0x00, .nothing) := by decide
/-- F19. -/
theorem test_esc : seen 0 (exec .esc (st false 18)) = some (true, 18, 0x00, .nothing) := by decide
/-- F6: a complete frame is lost silently. -/
theorem test_sof : seen 0 (exec .sof (st false 18)) = some (false, 0, 0x00, .nothing) := by decide
/-- F7 with the packet of S1 (D1): the reading the vector gives. -/
theorem test_eof_result : seen 1 (exec .eof (st false 18)) = some (false, 0, 0xE8,
    .result (.ok ⟨1000, #v[0, 0, 0, 0], 2500, -200, 0, 3836, d1⟩) ⟨false, false, false⟩) := by decide
/-- F10. -/
theorem test_eof_discard : seen 1 (exec .eof (st false 19)) = some (false, 0, 0xE8, .discard) := by decide
/-- F11. -/
theorem test_data_last : seen 17 (exec (.data 0xFF) (st false 17)) = some (false, 18, 0xFF, .nothing) := by decide
/-- F18. -/
theorem test_data_saturated : seen 17 (exec (.data 0x41) (st false 19)) = some (false, 19, 0x00, .nothing) := by decide
/-- D2. -/
theorem test_parse_d2 : ((nextOf (exec (.parse (some (encodePacket e6))) (st false 0))).map fun t => t.sig.out) =
    some (.result (.ok ⟨199944, #v[10, 13, 8, 255], 40950, -195, 2570, 2573, encodePacket e6⟩) ⟨false, false, false⟩) := by
  decide
/-- X2: packet D13 with EMPTYROM. -/
theorem test_parse_x2 : ((nextOf (exec (.parse (some d13)) { st false 0 with rom := [] })).map fun t => t.sig.out) =
    some (.result (.err .invalidSensorData) ⟨false, true, true⟩) := by decide
/-- K8: an out-of-order pair. -/
theorem test_lookup_k8 : ((nextOf (exec (.lookup ⟨20, 1⟩) (st false 0))).map fun t => t.sig.calRsp) =
    some (some (.ok (-195))) := by decide
/-- K7: a tie at the midpoint of indices 0 and 1. -/
theorem test_lookup_k7 : ((nextOf (exec (.lookup ⟨187096, 10000⟩) (st false 0))).map fun t => t.sig.calRsp) =
    some (some (.ok (-200))) := by decide
/-- V2 and V5. -/
theorem test_validate_bounds : valid ⟨10, 1⟩ 18 = true ∧ valid ⟨100001, 10000⟩ 18 = false := by decide
/-- V8. -/
theorem test_validate_length : ((nextOf (exec (.validate ⟨5, 1⟩ 17) (st false 0))).map fun t => t.sig.verdict) =
    some (some false) := by decide
/-- E7: the longest FRAME has 38 bytes, and they stand at the input in order. -/
theorem test_frame_longest :
    ((nextOf (exec (.frame ⟨0x08080808, #v[8, 8, 8, 8], 0x0D0D, 0x0A0A, 0x0808, 8, 8, 8, 8⟩) (st false 0))).map fun t =>
      (t.inq.length, (t.inq.map InPorts.inByte).take 3)) = some (38, [0x0D, 0x08, 0x08]) := by decide
/-- Z2: a reset request and a byte at one edge. -/
theorem test_step_clr_wins :
    seen 3 (step { st false 3 with inq := [⟨false, true, true, 0x41, false⟩] }) = some (false, 0, 0x00, .nothing) := by decide
/-- R222: a byte presented while a parse is completing is not accepted. -/
theorem test_step_stalled : seen 3
    (step { st false 3 with completing := true, inq := [⟨false, false, true, 0x41, true⟩] }) = some (false, 3, 0x00, .nothing) := by
  decide
/-- R163. -/
theorem test_devText : devText #v[10, 13, 8, 255] = "10 13 8 255" ∧ devText #v[0, 0, 0, 0] = "0 0 0 0" := by decide
/-- Hypotheses CAL_LOW and CAL_HIGH hold of TESTROM (S2, S3), as 95_test_vectors.md section 0 says. -/
theorem test_cal_low_high : CalNonempty testRom ∧ CalLow testRom ∧ CalHigh testRom :=
  ⟨by unfold CalNonempty; decide, by unfold CalLow; decide, by unfold CalHigh; decide⟩
/-- TESTROM "has a duplicate (indices 2, 3) and an out-of-order pair (indices 4, 5)" (95_test_vectors.md section 0). -/
theorem test_cal_nonmono : CalNonmono testRom :=
  ⟨2, 3, 4, 5, by decide, ⟨2, 3, by decide⟩, ⟨4, 5, by decide⟩, by decide⟩
/-- One duplicate pair is not two sub-ranges. -/
theorem test_one_duplicate_pair : ¬ CalNonmono [184932, 189260, 189260, 193580] := by
  have only : ∀ j < 4, ∀ i < j, Misordered [184932, 189260, 189260, 193580] i j → i = 1 ∧ j = 2 := by decide
  intro h
  obtain ⟨i, j, k, l, h1, h2, hjk⟩ := calNonmono_pairs h
  have a := only j h1.2.1 i h1.1 h1
  have b := only l h2.2.1 k h2.1 h2
  omega

/-! ### Witnesses: a concrete state and operands for the hypotheses of each statement -/

theorem witness_reset_request : (⟨true, false, true, 0x41, false⟩ : InPorts).rst = true ∧
    (⟨false, true, true, 0x41, false⟩ : InPorts).clr = true := by decide
theorem witness_no_byte : silentPorts.rst = false ∧ silentPorts.clr = false ∧ silentPorts.inValid = false := by decide
theorem witness_data_byte : (0x41 : Byte) ≠ 0x08#8 ∧ (0x41 : Byte) ≠ 0x0D#8 ∧ (0x41 : Byte) ≠ 0x0A#8 := by decide
/-- Both ends of APPEND's range, and both counts beyond it. -/
theorem witness_append_offsets : (st false 0).appendIndex = some 0 ∧ (st true 17).appendIndex = some 17 ∧
    (st false 18).appendIndex = none ∧ (st true 19).appendIndex = none := by decide
theorem witness_eof_arms : (st false 18).len = 18#5 ∧ (st false 17).len ≠ 18#5 ∧ (st false 19).len ≠ 18#5 := by decide
theorem witness_parse_lengths : d1.length = 18 ∧ (List.replicate 17 (0 : Byte)).length ≠ 18 ∧
    (List.replicate 19 (0 : Byte)).length ≠ 18 ∧ ∀ bytes : List Byte, (none : Option (List Byte)) = some bytes → bytes.length ≠ 18 := by
  simp [d1]
/-- The two sides of 10 V: D12 and D13. -/
theorem witness_parse_battery : d12.length = 18 ∧ (d12.getD 15 0#8).toNat + 256 * (d12.getD 16 0#8).toNat = 10000 ∧
    d13.length = 18 ∧ (d13.getD 15 0#8).toNat + 256 * (d13.getD 16 0#8).toNat = 10001 := by decide
theorem witness_parse_lookup : lookup (st false 0).rom ⟨100 * 400, 32768⟩ = .ok (-200) ∧ lookup [] ⟨100 * 400, 32768⟩ = .invalidInput := by
  decide
theorem witness_reserved : d1.length = 18 ∧ d10.length = 18 ∧
    (∀ o : Nat, o ≠ 0 → o ≠ 5 → o ≠ 6 → o ≠ 17 → d1.getD o 0#8 = d10.getD o 0#8) ∧
    (parse testRom (some d1)).out = .result (.ok ⟨1000, #v[0, 0, 0, 0], 2500, -200, 0, 3836, d1⟩) ⟨false, false, false⟩ ∧
    (parse testRom (some d13)).out = .result (.err .invalidSensorData) ⟨false, true, false⟩ := by
  refine ⟨by decide, by decide, fun o h0 h5 h6 h17 => ?_, by decide, by decide⟩
  by_cases h : o < 18
  · interval_cases o <;> first | rfl | contradiction
  · simp [d1, d10, show 18 ≤ o by omega]
theorem witness_lookup_operand : (⟨0, 1⟩ : Frac).den ≠ 0 ∧ 0 ≤ (⟨0, 1⟩ : Frac).num ∧ (st false 0).rom ≠ [] := by decide
theorem witness_lookup_bad : (⟨1, 0⟩ : Frac).den = 0 ∧ (⟨-1, 1⟩ : Frac).toRat < 0 ∧ ({ st false 0 with rom := [] } : State).rom = [] := by
  refine ⟨rfl, ?_, rfl⟩
  norm_num [Frac.toRat]
theorem witness_pipeline_lookup : lookup testRom (resistanceOf 0xFFFF#16) = .ok (-193) := by decide
theorem witness_validate : (⟨3836, 1000⟩ : Frac).den ≠ 0 ∧ (⟨0, 0⟩ : Frac).den = 0 := by decide
theorem witness_rom_entry : (st false 0).readRom 7 = some ⟨3902623, 10000⟩ ∧ (st false 0).readRom 8 = none := by decide
theorem witness_completing : (nextOf (exec .eof (st false 18))).map State.completing = some true ∧ (st false 18).completing = false := by
  decide
theorem witness_event_clauses :
    ({ st false 3 with inq := [⟨false, false, true, 0x41, false⟩] } : State).event = .byte 0x41 ∧
    ({ st false 3 with inq := [⟨false, true, true, 0x41, false⟩] } : State).event = .clr ∧
    inReady { st false 3 with completing := true } ⟨false, false, true, 0x41, true⟩ = false ∧ (st false 3).sample.stall = false := by
  decide
/-- A byte presented while a parse is completing at a stalled edge is not accepted, and the mark stays; at an edge that is not
stalled it is accepted and the mark goes. -/
theorem witness_completing_edges :
    ({ st false 3 with completing := true, inq := [⟨false, false, true, 0x41, true⟩] } : State).event = .idle ∧
    ({ st false 3 with completing := true, inq := [⟨false, false, true, 0x41, true⟩] } : State).edge.completing = true ∧
    ({ st false 3 with completing := true, inq := [⟨false, false, true, 0x41, false⟩] } : State).event = .byte 0x41 ∧
    ({ st false 3 with completing := true, inq := [⟨false, false, true, 0x41, false⟩] } : State).edge.completing = false ∧
    ({ st false 3 with completing := true, inq := [⟨true, false, true, 0x41, true⟩] } : State).edge.completing = false ∧
    ({ st false 3 with inq := [⟨false, false, true, 0x41, true⟩] } : State).event = .byte 0x41 ∧ (st false 3).inq = [] := by
  decide
theorem witness_placed_word : (st true 19).len.toNat ≤ 19 ∧ decodeTableWord 8 0x0D = some .sof := by decide
theorem witness_step_runs : (st true 19).len.toNat ≤ 19 ∧
    decode (.boundary (st true 19).esc (st true 19).event) = .ok .idle := by decide
theorem witness_wf_boundaries : Instr.wf (.parse (some [])) = true ∧ Instr.wf (.parse (some d1)) = true ∧
    Instr.wf (.lookup ⟨0, 2048⟩) = true ∧ Instr.wf (.lookup ⟨2097151, 2048⟩) = true ∧ Instr.wf (.validate ⟨0, 1000⟩ 0) = true ∧
    Instr.wf (.validate ⟨65535, 1000⟩ 31) = true ∧ Instr.wf (.data 0x09) = true := by decide
theorem witness_undefined : 19 < (st false 20).len.toNat ∧ (st false 20).event ≠ .clr ∧
    19 < ({ st false 31 with inq := [⟨true, false, false, 0, false⟩] } : State).len.toNat ∧
    ({ st false 31 with inq := [⟨true, false, false, 0, false⟩] } : State).event = .clr := by decide
theorem witness_exec_next : ∃ t, exec (.data 0x41) (st false 3) = .next t ∧ step (st false 3) = .next (st false 3).edge.quiet :=
  ⟨_, rfl, rfl⟩
theorem witness_step_event : ∃ t, stepEvent (.byte 0x0A) (st false 18) = .next t := ⟨_, rfl⟩
theorem witness_after_eof : (st false 5).esc = false := by decide
theorem witness_flag_written : (∃ t, exec .esc (st false 3) = .next t ∧ (st false 3).esc = false ∧ t.esc = true) ∧
    ∃ t, exec (.lit 0x41) (st true 3) = .next t ∧ (st true 3).esc = true ∧ t.esc = false := ⟨⟨_, rfl, rfl, rfl⟩, ⟨_, rfl, rfl, rfl⟩⟩
/-- A state with the invariant whose step hands a packet over. -/
theorem witness_inv : Inv { st false 18 with inq := [bytePorts 0x0A] } ∧
    ∃ t, step { st false 18 with inq := [bytePorts 0x0A] } = .next t :=
  ⟨⟨by decide, by decide, trivial⟩, ⟨_, rfl⟩⟩
theorem witness_abstracts : Abstracts ⟨true, d1 ++ [0x41, 0x42]⟩ (st true 19) := ⟨rfl, by decide, by decide⟩
/-- Two states that differ in a stale register. -/
theorem witness_stale : LenLegal (st false 3) ∧ SameButStale (st false 3) ((st false 3).writeBuf 5 0x77) ∧
    (st false 3).readBuf 5 ≠ ((st false 3).writeBuf 5 0x77).readBuf 5 :=
  ⟨by decide, ⟨rfl, rfl, rfl, rfl, rfl, rfl, rfl, by decide⟩, by decide⟩
theorem witness_round_trip : (st false 19).esc = false ∧ (st false 19).len.toNat ≤ 19 := by decide
/-- A run over a byte, a reset request, a silent edge and a byte that a completing parse holds off. -/
theorem witness_run : (st false 3).len.toNat ≤ 19 ∧
    events 4 { st false 3 with completing := true, inq := [⟨false, false, true, 0x41, true⟩, bytePorts 0x08,
      ⟨false, true, false, 0, false⟩, silentPorts] } = [.idle, .byte 0x08, .clr, .idle] := by decide
theorem witness_queued : (st false 17).len.toNat ≤ 19 ∧
    outputs 2 { st false 17 with inq := [0x41, 0x0A].map bytePorts ++ [silentPorts] } =
      [.nothing, (parse testRom (some (d1.set 17 0x41))).out] := by decide
/-- The discard of the second step of a run is observed at index 1, and nothing at index 0. -/
theorem witness_observable :
    observable (outputs 2 { st false 5 with inq := [bytePorts 0x41, bytePorts 0x0A] }) = [(1, .discard)] := by decide
theorem witness_no_start : (st false 0).esc = false ∧ (st false 0).len = 0#5 ∧ ∀ b ∈ d1, isControl b = false := by decide
theorem witness_ports : (parse testRom (some d1)).out =
    .result (.ok ⟨1000, #v[0, 0, 0, 0], 2500, -200, 0, 3836, d1⟩) ⟨false, false, false⟩ ∧ d1.length = 18 := by decide
/-- The ends of the 16-bit temperature range are readings too. -/
theorem witness_field_ports : ∀ t ∈ [(-32768 : Int), 32767], -32768 ≤ t ∧ t < 32768 := by decide
theorem witness_hand_over : (st false 18).len = 18#5 ∧ lookup (st false 18).rom ⟨2500, 2048⟩ = .ok (-200) := by decide

end Sys2Proof.Tests
end

/-! PROOFS. What an operation does to the two registers that are neither `len` nor the buffer: the flag `esc` and the ROM;
and the two statements that rest on them (spec/10_state.md R20, R31). -/

namespace Sys2Proof.Machine

open Sys2Proof

/-- EOF, whichever its arm, writes neither `esc` nor the ROM. -/
theorem execEof_esc_rom {s t : State} (h : execEof s = .next t) : t.esc = s.esc ∧ t.rom = s.rom := by
  rw [execEof] at h
  split at h
  · cases h; exact ⟨rfl, rfl⟩
  · cases h; exact ⟨rfl, rfl⟩

/-- What an operation does to `esc` (R20): ESC sets it, CLR and LIT clear it, every other operation leaves it. -/
theorem exec_esc_cases {i : Instr} {s t : State} (h : exec i s = .next t) :
    (i = .esc ∧ t.esc = true) ∨ ((i = .clr ∨ ∃ b, i = .lit b) ∧ t.esc = false) ∨ t.esc = s.esc := by
  cases i with
  | esc => cases h; exact .inl ⟨rfl, rfl⟩
  | clr => cases h; exact .inr (.inl ⟨.inl rfl, rfl⟩)
  | lit b => cases h; exact .inr (.inl ⟨.inr ⟨b, rfl⟩, rfl⟩)
  | eof => exact .inr (.inr (execEof_esc_rom h).1)
  | data b => cases h; exact .inr (.inr (s.append_esc b))
  | idle | sof | parse _ | lookup _ | validate _ _ | frame _ => cases h; exact .inr (.inr rfl)

/-- No operation writes the ROM (R28). -/
theorem exec_rom {i : Instr} {s t : State} (h : exec i s = .next t) : t.rom = s.rom := by
  cases i with
  | eof => exact (execEof_esc_rom h).2
  | data b => cases h; exact s.append_rom b
  | lit b => cases h; exact s.append_rom b
  | clr | idle | esc | sof | parse _ | lookup _ | validate _ _ | frame _ => cases h; rfl

/-- A state that presents no output event shows the idle ports (R225). -/
theorem State.outPorts_of_nothing {s : State} (h : s.sig.out = .nothing) : s.outPorts = idlePorts s.tick := by
  simp [State.outPorts, h]

/-- Settles O39: of the three things an operation can do to `esc`, only ESC's raises it, and only CLR's and LIT's lower it. -/
theorem onlyEscLitClrWriteTheFlag : Obligations.OnlyEscLitClrWriteTheFlag := by
  intro i s t h
  obtain ⟨hi, ht⟩ | ⟨hi, ht⟩ | ht := exec_esc_cases h
  · exact ⟨fun _ _ => hi, fun _ h0 => by simp [ht] at h0⟩
  · exact ⟨fun _ h1 => by simp [ht] at h1, fun _ _ => hi⟩
  · exact ⟨fun h0 h1 => by simp [ht, h0] at h1, fun h1 h0 => by simp [ht, h1] at h0⟩

/-- Settles O34: the fields of the reset state, whose ports are the idle ones. -/
theorem resetState : Obligations.ResetState := by
  have hp : State.reset.outPorts = idlePorts State.reset.tick := State.outPorts_of_nothing rfl
  exact ⟨State.reset_esc, State.reset_len, by rw [hp]; rfl, by rw [hp]; rfl, State.reset_rom⟩

end Sys2Proof.Machine

/-! PROOFS. Registers `BUF[k]` with `k` at or above `len` are never read (spec/10_state.md R22, R25): the relation "the same but
for those" is kept by each update of the state, hence by each step, hence by every event sequence. -/

namespace Sys2Proof.Safety

open Sys2Proof Sys2Proof.Machine

variable {s s' : State}

theorem SameButStale.setEsc (h : SameButStale s s') (v : Bool) : SameButStale (s.setEsc v) (s'.setEsc v) := by
  obtain ⟨-, hl, hr, hq, hc, hs, ht, hb⟩ := h
  exact ⟨rfl, hl, hr, hq, hc, hs, ht, hb⟩

/-- With `len` 0 every register is stale. -/
theorem SameButStale.clearLen (h : SameButStale s s') : SameButStale (s.setLen 0#5) (s'.setLen 0#5) := by
  obtain ⟨he, -, hr, hq, hc, hs, ht, -⟩ := h
  exact ⟨he, rfl, hr, hq, hc, hs, ht, fun k hk => absurd hk (by simp)⟩

theorem SameButStale.beginParse (h : SameButStale s s') : SameButStale s.beginParse s'.beginParse := by
  obtain ⟨he, hl, hr, hq, -, hs, ht, hb⟩ := h
  exact ⟨he, hl, hr, hq, rfl, hs, ht, hb⟩

theorem SameButStale.present (h : SameButStale s s') (sg : Signals) : SameButStale (s.present sg) (s'.present sg) := by
  obtain ⟨he, hl, hr, hq, hc, -, ht, hb⟩ := h
  exact ⟨he, hl, hr, hq, hc, rfl, ht, hb⟩

/-- The one register that APPEND takes out of the stale ones is the one it writes. -/
theorem SameButStale.append (h : SameButStale s s') (b : Byte) : SameButStale (s.append b) (s'.append b) := by
  obtain ⟨he, hl, hr, hq, hc, hs, ht, hb⟩ := h
  have hi : s'.appendIndex = s.appendIndex := by simp only [State.appendIndex, hl]
  refine ⟨by simp [he], ?_, by simp [hr], by simp [hq], by simp [hc], by simp [hs], by simp [ht], fun j hj => ?_⟩
  · simp only [State.append, hi, hl]
    split <;> simp
  · obtain ⟨k, hk, hlen, e⟩ | ⟨hn, hlen, e⟩ := s.append_cases b
    · have hlt : j.val < s.len.toNat + 1 := by
        rw [e, State.setLen_len, s.len_succ_toNat (by omega)] at hj
        exact hj
      rw [e, State.append, hi, hk]
      by_cases hjk : j = k
      · simp [hjk]
      · have : j.val < s.len.toNat := by have := Fin.val_ne_of_ne hjk; omega
        simp [State.writeBuf_readBuf_other, hjk, hb j this]
    · rw [e, State.append, hi, hn]
      exact hb j (by omega)

/-- With 18 bytes no register is stale, so both states hold the same packet. -/
theorem SameButStale.packet (h : SameButStale s s') (hl : s.len = 18#5) : s'.packet = s.packet := by
  obtain ⟨-, -, -, -, -, -, -, hb⟩ := h
  have hfull : s'.readBuf = s.readBuf := funext fun k => hb k (by simp [hl])
  rw [State.packet_eq, State.packet_eq, hfull]

/-- A step from two such states answers two such states, whatever the event. `len` need not be in range. -/
theorem SameButStale.stepEvent (h : SameButStale s s') (ev : Event) :
    ∃ t t', stepEvent ev s = .next t ∧ stepEvent ev s' = .next t' ∧ SameButStale t t' := by
  have ⟨hesc, hlen, hrom, _⟩ := h
  obtain rfl | rfl | ⟨b, rfl, he⟩ | ⟨rfl, he⟩ | ⟨rfl, he⟩ | ⟨rfl, he, h18⟩ | ⟨rfl, he, h18⟩ | ⟨b, rfl, he, hb⟩ := event_cases ev s
  · exact ⟨_, _, stepEvent_clr, stepEvent_clr, (h.setEsc false).clearLen.present _⟩
  · exact ⟨_, _, stepEvent_idle, stepEvent_idle, h.present _⟩
  · exact ⟨_, _, stepEvent_lit b he, stepEvent_lit b (hesc.trans he), ((h.append b).setEsc false).present _⟩
  · exact ⟨_, _, stepEvent_esc he, stepEvent_esc (hesc.trans he), (h.setEsc true).present _⟩
  · exact ⟨_, _, stepEvent_sof he, stepEvent_sof (hesc.trans he), h.clearLen.present _⟩
  · refine ⟨_, _, stepEvent_handOver he h18, stepEvent_handOver (hesc.trans he) (hlen.trans h18), ?_⟩
    rw [packetPulse, packetPulse, h.packet h18, hrom, hlen]
    exact h.clearLen.beginParse.present _
  · exact ⟨_, _, stepEvent_discard he h18, stepEvent_discard (hesc.trans he) (hlen ▸ h18), h.clearLen.present _⟩
  · exact ⟨_, _, stepEvent_data b he hb, stepEvent_data b (hesc.trans he) hb, (h.append b).present _⟩

/-- The fold of STEP keeps the relation, with the same outputs. -/
theorem SameButStale.feed (h : SameButStale s s') (evs : List Event) :
    ∃ t t' outs, feed evs s = some (t, outs) ∧ feed evs s' = some (t', outs) ∧ SameButStale t t' := by
  induction evs generalizing s s' with
  | nil => exact ⟨s, s', [], rfl, rfl, h⟩
  | cons ev evs ih =>
    obtain ⟨u, u', hu, hu', hrel⟩ := h.stepEvent ev
    obtain ⟨t, t', outs, ht, ht', hend⟩ := ih hrel
    have hout : u'.sig.out = u.sig.out := by
      obtain ⟨-, -, -, -, -, hsig, -⟩ := hrel
      rw [hsig]
    exact ⟨t, t', u.sig.out :: outs, by simp [feed_cons hu, ht], by simp [feed_cons hu', ht', hout], hend⟩

/-- Settles O43: the relation is kept along the fold of STEP. -/
theorem staleBufferIsUnobservable : Obligations.StaleBufferIsUnobservable :=
  fun evs _ _ _ h => h.feed evs

end Sys2Proof.Safety

/-! PROOFS. The hardware's framer refines the source's (spec/10_state.md R30): the abstraction is kept by each update of the
state beside the source's own, hence by each step, hence by every event sequence. -/

namespace Sys2Proof.Machine

open Sys2Proof

/-! ### The source's five transitions (R120), one equation each -/

section Source

variable {d : SourceState} (rom : List RomWord)

theorem sourceStep_lit (b : Byte) (he : d.escape = true) :
    sourceStep rom (.byte b) d = (⟨false, d.bytes ++ [b]⟩, .nothing) := by
  simp [sourceStep, he]

theorem sourceStep_esc (he : d.escape = false) : sourceStep rom (.byte 0x08#8) d = (⟨true, d.bytes⟩, .nothing) := by
  simp [sourceStep, he]

theorem sourceStep_sof (he : d.escape = false) : sourceStep rom (.byte 0x0D#8) d = (⟨false, []⟩, .nothing) := by
  simp [sourceStep, he]

theorem sourceStep_eof (he : d.escape = false) : sourceStep rom (.byte 0x0A#8) d =
    (⟨false, []⟩, if d.bytes.length = 18 then (parse rom (some d.bytes)).out else .discard) := by
  simp [sourceStep, he]

theorem sourceStep_data (b : Byte) (he : d.escape = false) (hb : isControl b = false) :
    sourceStep rom (.byte b) d = (⟨false, d.bytes ++ [b]⟩, .nothing) := by
  have hc : ¬ (b = 0x08#8 ∨ b = 0x0D#8 ∨ b = 0x0A#8) := by simp [← isControl_iff, hb]
  simp only [not_or] at hc
  simp [sourceStep, he, hc]

end Source

/-! ### The abstraction under each update of the state -/

variable {d : SourceState} {s : State}

theorem Abstracts.setEsc (h : Abstracts d s) (v : Bool) : Abstracts ⟨v, d.bytes⟩ (s.setEsc v) := by
  obtain ⟨-, hl, hb⟩ := h
  exact ⟨rfl, hl, hb⟩

/-- An emptied source buffer is `len` 0, whatever `BUF` holds. -/
theorem Abstracts.clearLen (h : Abstracts d s) : Abstracts ⟨d.escape, []⟩ (s.setLen 0#5) := by
  obtain ⟨he, -, -⟩ := h
  exact ⟨he, rfl, fun k hk => absurd hk (by simp)⟩

theorem Abstracts.beginParse (h : Abstracts d s) : Abstracts d s.beginParse := h

theorem Abstracts.present (h : Abstracts d s) (sg : Signals) : Abstracts d (s.present sg) := h

/-- APPEND is the source's push: it stores the byte while fewer than 18 stand in the buffer, and after that only the count,
saturated at 19, remembers that there were more. -/
theorem Abstracts.append (h : Abstracts d s) (b : Byte) : Abstracts ⟨d.escape, d.bytes ++ [b]⟩ (s.append b) := by
  obtain ⟨he, hl, hb⟩ := h
  refine ⟨by simp [he], ?_, fun j hj => ?_⟩
  · obtain ⟨k, -, hk, e⟩ | ⟨-, hk, e⟩ := s.append_cases b
    · rw [e, State.setLen_len, s.len_succ_toNat (by omega), List.length_append, List.length_singleton]
      omega
    · simp only [e, State.setLen_len, BitVec.toNat_ofNat, List.length_append, List.length_singleton]
      omega
  · have hle : j.val < d.bytes.length + 1 := by simpa using hj
    obtain hlt | hlast := Nat.lt_succ_iff_lt_or_eq.mp hle
    · have hne : s.appendIndex ≠ some j := by
        intro hi
        obtain ⟨k, hk, hkl, -⟩ | ⟨hn, -, -⟩ := s.append_cases b
        · cases hk.symm.trans hi; omega
        · cases hn.symm.trans hi
      rw [List.getElem?_append_left hlt, s.append_readBuf_other b j hne, hb j hlt]
    · have hi : s.appendIndex = some j := by
        have : s.len.toNat = j.val := by omega
        simp [State.appendIndex, this]
      simp [hlast, State.append, hi]

/-- The source's buffer has 18 bytes exactly when `len` is 18: saturation at 19 keeps the two apart. -/
theorem Abstracts.length_eq_iff (h : Abstracts d s) : d.bytes.length = 18 ↔ s.len = 18#5 := by
  obtain ⟨-, hl, -⟩ := h
  rw [BitVec.toNat_eq, hl, BitVec.toNat_ofNat]
  omega

/-- A complete frame stands in the registers as in the source's buffer. -/
theorem Abstracts.packet_eq_bytes (h : Abstracts d s) (hl : s.len = 18#5) : s.packet = d.bytes := by
  have hlen := h.length_eq_iff.mpr hl
  obtain ⟨-, -, hb⟩ := h
  apply List.ext_getElem
  · simp [hlen]
  · intro k hk hk'
    have hbyte : d.bytes[k] = s.readBuf ⟨k, by omega⟩ := by
      simpa [List.getElem?_eq_getElem hk'] using hb ⟨k, by omega⟩ hk'
    simp [hbyte, State.packet, State.readBuf]

/-! ### One step, and every event sequence -/

/-- The commuting square: a step of the hardware beside one of the source gives the source's output and keeps the abstraction. -/
theorem Abstracts.stepEvent (h : Abstracts d s) (ev : Event) :
    ∃ t, stepEvent ev s = .next t ∧ t.sig.out = (sourceStep s.rom ev d).2 ∧ Abstracts (sourceStep s.rom ev d).1 t := by
  have ⟨hesc, _⟩ := h
  obtain rfl | rfl | ⟨b, rfl, he⟩ | ⟨rfl, he⟩ | ⟨rfl, he⟩ | ⟨rfl, he, h18⟩ | ⟨rfl, he, h18⟩ | ⟨b, rfl, he, hb⟩ := event_cases ev s
  · exact ⟨_, stepEvent_clr, rfl, (h.setEsc false).clearLen.present _⟩
  · exact ⟨_, stepEvent_idle, rfl, h.present _⟩
  · rw [sourceStep_lit _ b (hesc ▸ he)]
    exact ⟨_, stepEvent_lit b he, rfl, ((h.append b).setEsc false).present _⟩
  all_goals have hd : d.escape = false := hesc ▸ he
  · rw [sourceStep_esc _ hd]
    exact ⟨_, stepEvent_esc he, rfl, (h.setEsc true).present _⟩
  · rw [sourceStep_sof _ hd, ← hd]
    exact ⟨_, stepEvent_sof he, rfl, h.clearLen.present _⟩
  · rw [sourceStep_eof _ hd, if_pos (h.length_eq_iff.mpr h18), ← h.packet_eq_bytes h18, ← hd]
    exact ⟨_, stepEvent_handOver he h18, rfl, h.clearLen.beginParse.present _⟩
  · rw [sourceStep_eof _ hd, if_neg (h18 ∘ h.length_eq_iff.mp), ← hd]
    exact ⟨_, stepEvent_discard he h18, rfl, h.clearLen.present _⟩
  · rw [sourceStep_data _ b hd hb, ← hd]
    exact ⟨_, stepEvent_data b he hb, rfl, (h.append b).present _⟩

/-- The fold of STEP beside the source's run. -/
theorem Abstracts.feed (h : Abstracts d s) (evs : List Event) :
    ∃ t, feed evs s = some (t, (sourceFeed s.rom evs d).2) ∧ Abstracts (sourceFeed s.rom evs d).1 t := by
  induction evs generalizing s d with
  | nil => exact ⟨s, rfl, h⟩
  | cons ev evs ih =>
    obtain ⟨u, hu, hout, hrel⟩ := h.stepEvent ev
    obtain ⟨t, ht, hend⟩ := ih hrel
    rw [exec_rom hu] at ht hend
    exact ⟨t, by simp [feed_cons hu, ht, hout, sourceFeed], hend⟩

theorem abstracts_fresh_reset : Abstracts SourceState.fresh State.reset :=
  ⟨rfl, rfl, fun k hk => absurd hk (by simp [SourceState.fresh])⟩

/-- Settles O42: the commuting square along the fold of STEP, and the two start states. -/
theorem hardwareRefinesTheSource : Obligations.HardwareRefinesTheSource :=
  ⟨fun evs _ _ h => h.feed evs, abstracts_fresh_reset⟩

end Sys2Proof.Machine

/-! PROOFS. The ROM has no write path (spec/20_memory.md R52): a step is an edge, which leaves the ROM, and an operation, which
does too. -/

namespace Sys2Proof.Machine

open Sys2Proof

/-- No step writes the ROM. -/
theorem step_rom {s t : State} (h : step s = .next t) : t.rom = s.rom := by
  obtain ⟨-, hrun⟩ := step_cases h
  rw [exec_rom hrun, State.edge_rom]

/-- Settles O35: the operation by `exec_rom`, the step by `step_rom`. -/
theorem nothingWritesTheRom : Obligations.NothingWritesTheRom :=
  ⟨fun _ _ _ h => exec_rom h, fun _ _ h => step_rom h⟩

end Sys2Proof.Machine

/-! PROOFS. Selection (spec/30_encoding.md R82 to R84): one equation for each operation a byte can select, and the case list
of byte values. -/

namespace Sys2Proof

theorem select_escaped (b : Byte) : select true (.byte b) = .lit b := rfl

theorem select_normal_esc : select false (.byte 0x08#8) = .esc := rfl

theorem select_normal_sof : select false (.byte 0x0D#8) = .sof := rfl

theorem select_normal_eof : select false (.byte 0x0A#8) = .eof := rfl

theorem select_normal_data {b : Byte} (hb : isControl b = false) : select false (.byte b) = .data b := by
  simp only [isControl, Bool.or_eq_false_iff] at hb
  simp [select, selectByte, hb]

/-- A byte is one of the three control codes or none of them (R82). -/
theorem byte_cases (b : Byte) : b = 0x08#8 ∨ b = 0x0D#8 ∨ b = 0x0A#8 ∨ isControl b = false := by
  cases hb : isControl b with
  | false => simp
  | true => simpa using (Machine.isControl_iff b).mp hb

/-- Settles O24: each kind of byte value has its equation, and the four operations are distinct constructors. -/
theorem selectionFollowsThePriorities : Obligations.SelectionFollowsThePriorities := by
  refine ⟨select_escaped, fun b => ?_, fun e => ⟨rfl, rfl⟩⟩
  obtain rfl | rfl | rfl | hb := byte_cases b
  · simp [select_normal_esc]
  · simp [select_normal_sof]
  · simp [select_normal_eof]
  · have hne : ¬ (b = 0x08#8 ∨ b = 0x0D#8 ∨ b = 0x0A#8) := by simp [← Machine.isControl_iff, hb]
    simp only [not_or] at hne
    simp [select_normal_data hb, hne]

end Sys2Proof

/-! PROOFS. `Encode` is undone by reading the fields (spec/30_encoding.md R54, R88, R102): the little-endian count of a value's
bytes is the value. -/

namespace Sys2Proof

/-- The count of `n` bytes of a value from byte `k` on is that slice of the value (R54). -/
theorem leCount_leBytes {w : Nat} (v : BitVec w) (k n : Nat) :
    leCount ((List.range' k n).map (leByte v)) = v.toNat / 2 ^ (8 * k) % 2 ^ (8 * n) := by
  induction n generalizing k with
  | zero => simp [leCount, Nat.mod_one]
  | succ n ih =>
    have hdiv : v.toNat / 2 ^ (8 * (k + 1)) = v.toNat / 2 ^ (8 * k) / 2 ^ 8 := by
      rw [Nat.div_div_eq_div_mul, ← pow_add]
      rfl
    have hmod : 2 ^ (8 * (n + 1)) = 2 ^ 8 * 2 ^ (8 * n) := by
      rw [← pow_add]
      congr 1
      omega
    simp only [List.range'_succ, List.map_cons, leCount, ih, leByte, BitVec.extractLsb'_toNat, Nat.shiftRight_eq_div_pow,
      hdiv, hmod, Nat.mod_mul]
    rfl

/-- A value whose width its bytes cover is read back from them. -/
theorem ofNat_leCount_leBytes {w : Nat} (v : BitVec w) {n : Nat} (h : w ≤ 8 * n) :
    BitVec.ofNat w (leCount ((List.range' 0 n).map (leByte v))) = v := by
  have hlt : v.toNat < 2 ^ (8 * n) := v.isLt.trans_le (Nat.pow_le_pow_right (by decide) h)
  rw [leCount_leBytes, Nat.mul_zero, pow_zero, Nat.div_one, Nat.mod_eq_of_lt hlt, BitVec.ofNat_toNat, BitVec.setWidth_eq]

@[simp] theorem encodePacket_length (f : FrameArgs) : (encodePacket f).length = 18 := rfl

theorem devBytes_encodePacket (f : FrameArgs) : devBytes (encodePacket f) = f.dev := by
  ext i hi
  have : i = 0 ∨ i = 1 ∨ i = 2 ∨ i = 3 := by omega
  obtain rfl | rfl | rfl | rfl := this <;> rfl

/-- Reading the fields of `Encode` gives every argument back, the reserved bytes too (R88, R102). -/
theorem frameArgsOf_encodePacket (f : FrameArgs) : frameArgsOf (encodePacket f) = f := by
  have htemp : BitVec.ofNat 32 (fieldCount (encodePacket f) 1 4) = f.temp := ofNat_leCount_leBytes f.temp (n := 4) (by decide)
  have hrtd : BitVec.ofNat 16 (fieldCount (encodePacket f) 11 2) = f.rtd := ofNat_leCount_leBytes f.rtd (n := 2) (by decide)
  have htc : BitVec.ofNat 16 (fieldCount (encodePacket f) 13 2) = f.tc := ofNat_leCount_leBytes f.tc (n := 2) (by decide)
  have hbatt : BitVec.ofNat 16 (fieldCount (encodePacket f) 15 2) = f.batt := ofNat_leCount_leBytes f.batt (n := 2) (by decide)
  rw [frameArgsOf, htemp, devBytes_encodePacket, hrtd, htc, hbatt]
  rfl

end Sys2Proof

/-! PROOFS. The FRAME round trip (spec/30_encoding.md R103): the machine's steps over a queue of bytes are the fold of STEP, the
fold answers as the source's framer, and the source's framer undoes `Stuff` byte by byte. -/

namespace Sys2Proof.Machine

open Sys2Proof Sys2Proof.Safety

/-! ### The machine's steps are the fold of STEP -/

section Queue

variable {s u : State}

theorem sameBlock_refl (s : State) : SameBlock s s := ⟨rfl, rfl, fun _ => rfl, rfl, rfl⟩

/-- With `len` in range a step takes the head of the queue and runs STEP on the event, as from any state with the same block. -/
theorem step_sameBlock (hl : s.len.toNat ≤ 19) (hb : SameBlock s u) :
    ∃ s' u', step s = .next s' ∧ stepEvent s.event u = .next u' ∧ SameBlock s' u' ∧ s'.inq = s.inq.tail ∧
      s'.len.toNat ≤ 19 := by
  have hedge : SameBlock s.edge u := hb
  obtain ⟨s', u', hs', hu', hrel, hq, -⟩ := stepEvent_sameBlock hedge s.event
  exact ⟨s', u', by rw [step_eq_stepEvent hl, hs'], hu', hrel, hq, stepEvent_len_le (s := s.edge) hl hs'⟩

/-- The outputs of the machine's steps are those of the fold of STEP over the events it takes (R220). -/
theorem feed_events (n : Nat) (hl : s.len.toNat ≤ 19) (hb : SameBlock s u) :
    ∃ t, feed (events n s) u = some (t, outputs n s) := by
  induction n generalizing s u with
  | zero => exact ⟨u, rfl⟩
  | succ n ih =>
    obtain ⟨s', u', hs', hu', hrel, -, hl'⟩ := step_sameBlock hl hb
    obtain ⟨t, ht⟩ := ih hl' hrel
    obtain ⟨-, -, -, -, hsig⟩ := hrel
    exact ⟨t, by simp [events_succ hs', outputs_succ hs', feed_cons hu', ht, hsig]⟩

/-- Bytes that wait at the input, one sample each, are the events the machine takes (R223). -/
theorem events_of_bytes (bytes : List Byte) {rest : List InPorts} (hl : s.len.toNat ≤ 19)
    (hq : s.inq = bytes.map bytePorts ++ rest) : events bytes.length s = byteEvents bytes := by
  induction bytes generalizing s with
  | nil => rfl
  | cons b bytes ih =>
    obtain ⟨s', -, hs', -, -, hq', hl'⟩ := step_sameBlock hl (sameBlock_refl s)
    rw [List.length_cons, events_succ hs', event_of_bytePorts hq, ih hl' (by rw [hq', hq]; rfl)]
    rfl

end Queue

/-! ### The source's run over a stuffed stream -/

section Source

variable (rom : List RomWord)

theorem sourceFeed_cons (ev : Event) (evs : List Event) (d : SourceState) :
    sourceFeed rom (ev :: evs) d = ((sourceFeed rom evs (sourceStep rom ev d).1).1,
      (sourceStep rom ev d).2 :: (sourceFeed rom evs (sourceStep rom ev d).1).2) := rfl

/-- `Stuff` of one byte puts just that byte into the buffer (R86, R101). -/
theorem sourceFeed_stuff (b : Byte) (evs : List Event) (bytes : List Byte) :
    sourceFeed rom (byteEvents (stuff b) ++ evs) ⟨false, bytes⟩ =
      ((sourceFeed rom evs ⟨false, bytes ++ [b]⟩).1,
        List.replicate (stuff b).length .nothing ++ (sourceFeed rom evs ⟨false, bytes ++ [b]⟩).2) := by
  cases hb : isControl b with
  | true =>
    simp [stuff, hb, byteEvents, Config.escCode, sourceFeed_cons, sourceStep_esc, sourceStep_lit, List.replicate_succ]
  | false => simp [stuff, hb, byteEvents, sourceFeed_cons, sourceStep_data]

/-- `Stuff` of a byte sequence puts just those bytes into the buffer, silently. -/
theorem sourceFeed_stuffAll (data : List Byte) (evs : List Event) (bytes : List Byte) :
    sourceFeed rom (byteEvents (stuffAll data) ++ evs) ⟨false, bytes⟩ =
      ((sourceFeed rom evs ⟨false, bytes ++ data⟩).1,
        List.replicate (stuffAll data).length .nothing ++ (sourceFeed rom evs ⟨false, bytes ++ data⟩).2) := by
  induction data generalizing bytes with
  | nil => simp [stuffAll, byteEvents]
  | cons b data ih =>
    have hsplit : byteEvents (stuffAll (b :: data)) ++ evs =
        byteEvents (stuff b) ++ (byteEvents (stuffAll data) ++ evs) := by simp [stuffAll, byteEvents]
    rw [hsplit, sourceFeed_stuff, ih, ← List.append_cons, ← List.append_assoc, List.replicate_append_replicate, stuffAll,
      List.length_append]

/-- The source answers the stream of a FRAME with one PARSE result, on `Encode` of the arguments, at the last byte (R103). -/
theorem sourceFeed_frameStream (f : FrameArgs) (bytes : List Byte) :
    (sourceFeed rom (byteEvents (frameStream f)) ⟨false, bytes⟩).2 =
      List.replicate ((frameStream f).length - 1) .nothing ++ [(parse rom (some (encodePacket f))).out] := by
  have hstream : byteEvents (frameStream f) =
      .byte 0x0D#8 :: (byteEvents (stuffAll (encodePacket f)) ++ [.byte 0x0A#8]) := by
    simp [frameStream, byteEvents, Config.sofCode, Config.eofCode]
  have hlen : (frameStream f).length - 1 = (stuffAll (encodePacket f)).length + 1 := by simp [frameStream]
  have heof : (sourceFeed rom [.byte 0x0A#8] ⟨false, encodePacket f⟩).2 = [(parse rom (some (encodePacket f))).out] := by
    simp [sourceFeed, sourceStep_eof]
  rw [hstream, hlen, sourceFeed_cons, sourceStep_sof rom rfl, sourceFeed_stuffAll, List.nil_append, heof]
  rfl

end Source

/-! ### The round trip -/

/-- Every state with `len` in range stands for a state of the source. -/
theorem exists_abstracts {s : State} (hl : s.len.toNat ≤ 19) : ∃ bytes, Abstracts ⟨s.esc, bytes⟩ s := by
  refine ⟨(s.packet ++ [0#8]).take s.len.toNat, rfl, by simp; omega, fun k hk => ?_⟩
  have hk' : k.val < s.len.toNat := by simp at hk; omega
  have hpacket : k.val < s.packet.length := by simp
  rw [List.getElem?_take_of_lt hk', List.getElem?_append_left hpacket, List.getElem?_eq_getElem hpacket]
  rfl

/-- Over a waiting byte stream the machine puts out what the source's framer answers. -/
theorem outputs_eq_sourceFeed {s : State} {d : SourceState} {stream : List Byte} {rest : List InPorts} (h : Abstracts d s)
    (hl : s.len.toNat ≤ 19) (hq : s.inq = stream.map bytePorts ++ rest) :
    outputs stream.length s = (sourceFeed s.rom (byteEvents stream) d).2 := by
  obtain ⟨t, ht⟩ := feed_events stream.length hl (sameBlock_refl s)
  obtain ⟨t', ht', -⟩ := h.feed (byteEvents stream)
  rw [events_of_bytes stream hl hq, ht'] at ht
  simpa using (congrArg Prod.snd (Option.some.inj ht)).symm

/-- Settles O44: the machine answers the stream as the source does, and reading the fields undoes `Encode`. -/
theorem frameRoundTrip : Obligations.FrameRoundTrip := by
  intro f s he hl
  have hargs := frameArgsOf_encodePacket f
  refine ⟨?_, congrArg FrameArgs.temp hargs, congrArg FrameArgs.dev hargs, congrArg FrameArgs.rtd hargs,
    congrArg FrameArgs.tc hargs, congrArg FrameArgs.batt hargs⟩
  obtain ⟨bytes, habs⟩ := exists_abstracts hl
  rw [he] at habs
  exact (outputs_eq_sourceFeed (s := { s with inq := (frameStream f).map bytePorts ++ s.inq }) habs hl rfl).trans
    (sourceFeed_frameStream s.rom f bytes)

end Sys2Proof.Machine

/-! PROOFS. What the framer puts out (spec/40_framer.md R129): only an EOF presents an output event, PARSE's answer at `len` 18
and the discard warning at any other; and what every EOF leaves behind (R131). -/

namespace Sys2Proof.Machine

open Sys2Proof

variable {s t : State}

/-- PARSE always answers with a Result (R151). -/
theorem parse_out (rom : List RomWord) (pkt : Option (List Byte)) : ∃ r adv, (parse rom pkt).out = .result r adv := by
  obtain ⟨h, -⟩ | ⟨bytes, -, -, h⟩ := parse_cases rom pkt
  · exact ⟨_, _, congrArg Signals.out h⟩
  · rw [h, parseFromLookup]
    split
    · exact ⟨_, _, rfl⟩
    · exact ⟨_, _, rfl⟩

/-- The three outputs a STEP can have: nothing but at an unescaped 0x0A, and there a Result or a Discard by `len`. -/
theorem stepEvent_out_cases {ev : Event} (h : stepEvent ev s = .next t) :
    (t.sig.out = .nothing ∧ ¬ (ev = .byte 0x0A#8 ∧ s.esc = false)) ∨
    ((∃ r adv, t.sig.out = .result r adv) ∧ ev = .byte 0x0A#8 ∧ s.esc = false ∧ s.len = 18#5) ∨
    (t.sig.out = .discard ∧ ev = .byte 0x0A#8 ∧ s.esc = false ∧ s.len ≠ 18#5) := by
  obtain rfl | rfl | ⟨b, rfl, he⟩ | ⟨rfl, he⟩ | ⟨rfl, he⟩ | ⟨rfl, he, h18⟩ | ⟨rfl, he, h18⟩ | ⟨b, rfl, he, hb⟩ := event_cases ev s
  · cases h; exact .inl ⟨rfl, by simp⟩
  · cases h; exact .inl ⟨rfl, by simp⟩
  · rw [stepEvent_lit b he] at h; cases h; exact .inl ⟨rfl, by simp [he]⟩
  · rw [stepEvent_esc he] at h; cases h; exact .inl ⟨rfl, by simp⟩
  · rw [stepEvent_sof he] at h; cases h; exact .inl ⟨rfl, by simp⟩
  · rw [stepEvent_handOver he h18] at h; cases h; exact .inr (.inl ⟨parse_out _ _, rfl, he, h18⟩)
  · rw [stepEvent_discard he h18] at h; cases h; exact .inr (.inr ⟨rfl, rfl, he, h18⟩)
  · rw [stepEvent_data b he hb] at h; cases h
    refine .inl ⟨rfl, ?_⟩
    rintro ⟨hev, -⟩
    cases hev
    exact absurd hb (by decide)

/-- Settles O36: the three outputs exclude each other, as do the conditions they come with. -/
theorem onlyEofProducesOutput : Obligations.OnlyEofProducesOutput := by
  intro s t ev h
  obtain ⟨ho, hne⟩ | ⟨⟨r, adv, ho⟩, hev, he, hl⟩ | ⟨ho, hev, he, hl⟩ := stepEvent_out_cases h
  · exact ⟨iff_of_false (by simp [ho]) fun ⟨hev, he, _⟩ => hne ⟨hev, he⟩,
      iff_of_false (by simp [ho]) fun ⟨hev, he, _⟩ => hne ⟨hev, he⟩⟩
  · simp [ho, hev, he, hl]
  · simp [ho, hev, he, hl]

/-- Settles O38: both arms of EOF clear `len` and leave `esc`. -/
theorem afterEofTheFramerIsFresh : Obligations.AfterEofTheFramerIsFresh := by
  intro s he
  by_cases hl : s.len = 18#5
  · exact ⟨_, stepEvent_handOver he hl, he, rfl⟩
  · exact ⟨_, stepEvent_discard he hl, he, rfl⟩

end Sys2Proof.Machine

/-! PROOFS. Idle events change no result (spec/40_framer.md R133): an Idle event only withdraws what was presented, and no
operation reads what was presented (spec/45_pipeline.md R227). -/

namespace Sys2Proof.Machine

open Sys2Proof Sys2Proof.Safety

variable (s : State) (sg : Signals)

@[simp] theorem State.append_present (b : Byte) : (s.present sg).append b = (s.append b).present sg := by
  have hi : (s.present sg).appendIndex = s.appendIndex := rfl
  rw [State.append, State.append, hi]
  cases s.appendIndex with
  | some k => rfl
  | none => rfl

/-- No operation reads the signals of the one before it. -/
theorem exec_present (i : Instr) : exec i (s.present sg) = exec i s := by
  cases i with
  | lit b => simp only [exec, execLit, State.append_present]; rfl
  | data b => simp only [exec, execData, State.append_present]; rfl
  | clr | idle | esc | sof | eof | parse _ | lookup _ | validate _ _ | frame _ => rfl

theorem stepEvent_present (ev : Event) : stepEvent ev (s.present sg) = stepEvent ev s :=
  exec_present s sg (select s.esc ev)

/-- The Idle events left out, and the state the fold starts from may present anything: the fold ends in the same state but
for what it presents, with the same outputs other than None. -/
theorem feed_filter_idle (evs : List Event) :
    ∃ t sg' outs outs', feed evs (s.present sg) = some (t.present sg', outs) ∧
      feed (evs.filter (· ≠ .idle)) s = some (t, outs') ∧ outs.filter (· ≠ .nothing) = outs'.filter (· ≠ .nothing) := by
  induction evs generalizing s sg with
  | nil => exact ⟨s, sg, [], [], rfl, rfl, rfl⟩
  | cons ev evs ih =>
    by_cases hev : ev = .idle
    · subst hev
      obtain ⟨t, sg', outs, outs', hf, hf', ho⟩ := ih s Signals.quiet
      have hidle : stepEvent .idle (s.present sg) = .next (s.present Signals.quiet) := rfl
      exact ⟨t, sg', .nothing :: outs, outs', by rw [feed_cons hidle, hf]; rfl, by simpa using hf', by simpa using ho⟩
    · obtain ⟨u, hu⟩ := stepEvent_next ev s
      obtain ⟨t, sg', outs, outs', hf, hf', ho⟩ := ih u u.sig
      have hu' : stepEvent ev (s.present sg) = .next (u.present u.sig) := (stepEvent_present s sg ev).trans hu
      refine ⟨t, sg', u.sig.out :: outs, u.sig.out :: outs', by simp [feed_cons hu', hf], ?_, ?_⟩
      · rw [List.filter_cons_of_pos (by simpa using hev), feed_cons hu, hf']
        rfl
      · simp only [List.filter_cons, ho]

/-- Settles O45: both folds start from the same state, and `esc`, `len` and `BUF` are no signals. -/
theorem idleEventsDoNotMatter : Obligations.IdleEventsDoNotMatter := by
  intro evs s
  obtain ⟨t, sg', outs, outs', hf, hf', ho⟩ := feed_filter_idle s s.sig evs
  exact ⟨t.present sg', t, outs, outs', hf, hf', ho, rfl, rfl, fun _ => rfl⟩

end Sys2Proof.Machine

/-! PROOFS. The seven operations of the framer (spec/40_framer.md R121 to R128): what selects each, what it writes, and what it
leaves unchanged. -/

namespace Sys2Proof.Machine

open Sys2Proof Sys2Proof.Safety

section EventFormation

variable {p : InPorts} (ready : Bool)

/-- A reset request comes before any byte (R222, R230). -/
theorem formEvent_resetRequest (h : p.rst = true ∨ p.clr = true) : formEvent p ready = .clr := by
  have hreq : resetRequest p = true := by rw [resetRequest, Bool.or_eq_true]; exact h
  simp [formEvent, hreq]

theorem formEvent_noByte (hr : p.rst = false) (hc : p.clr = false) (hv : p.inValid = false) : formEvent p ready = .idle := by
  simp [formEvent, resetRequest, hr, hc, hv]

end EventFormation

/-- Settles O1: a reset request forms the Clr event, and CLR is its two register updates. -/
theorem clrClearsEscAndLenOnly : Obligations.ClrClearsEscAndLenOnly :=
  ⟨fun _ ready h => formEvent_resetRequest ready h, fun _ => rfl,
    fun _ => ⟨_, rfl, rfl, rfl, fun _ => rfl, ⟨rfl, rfl, rfl, rfl⟩, rfl⟩⟩

/-- Settles O2: silent ports form the Idle event, and IDLE withdraws what was presented. -/
theorem idleChangesNothing : Obligations.IdleChangesNothing :=
  ⟨fun _ ready hr hc hv => formEvent_noByte ready hr hc hv, fun _ => rfl,
    fun _ => ⟨_, rfl, ⟨rfl, rfl, fun _ => rfl, rfl, rfl, rfl, rfl⟩, rfl⟩⟩

/-- Settles O3: ESC is one update of `esc`. -/
theorem escSetsTheEscapeFlagOnly : Obligations.EscSetsTheEscapeFlagOnly :=
  ⟨select_normal_esc, fun _ => ⟨_, rfl, rfl, rfl, fun _ => rfl, ⟨rfl, rfl, rfl, rfl⟩, rfl⟩⟩

/-- Settles O4: SOF is one update of `len`, with no test of what `len` was. -/
theorem sofClearsLenWithoutWarning : Obligations.SofClearsLenWithoutWarning :=
  ⟨select_normal_sof, fun _ => ⟨_, rfl, rfl, rfl, fun _ => rfl, ⟨rfl, rfl, rfl, rfl⟩, rfl⟩⟩

section Eof

variable {s : State}

theorem exec_eof_handOver (hl : s.len = 18#5) : exec .eof s = .next ((s.setLen 0#5).beginParse.present
    { parse s.rom (some s.packet) with pkt := some (packetPulse s) }) := if_pos hl

theorem exec_eof_discard (hl : s.len ≠ 18#5) : exec .eof s = .next (s.setLen 0#5).emitDiscard := if_neg hl

end Eof

/-- Settles O5: the two arms of EOF, the packet being the buffer in offset order. -/
theorem eofHandsOverOrDiscards : Obligations.EofHandsOverOrDiscards := by
  refine ⟨select_normal_eof, fun s => ?_⟩
  by_cases hl : s.len = 18#5
  · exact ⟨_, exec_eof_handOver hl, rfl, rfl, fun _ => rfl, rfl, rfl, rfl, fun _ => by rw [← s.packet_eq]; rfl,
      fun hne => absurd hl hne⟩
  · exact ⟨_, exec_eof_discard hl, rfl, rfl, fun _ => rfl, rfl, rfl, rfl, fun h18 => absurd h18 hl, fun _ => ⟨rfl, rfl⟩⟩

section Append

variable {s : State} (b : Byte)

theorem State.append_sameSurroundings : SameSurroundings (s.append b) s :=
  ⟨s.append_rom b, s.append_inq b, s.append_completing b, s.append_tick b⟩

/-- APPEND with room: the byte stands at the offset, `len` counts it, and every other byte stays (R127). -/
theorem State.append_stored {k : Fin 18} (hk : s.appendIndex = some k) :
    (s.append b).readBuf k = b ∧ (s.append b).len.toNat = s.len.toNat + 1 ∧
      ∀ j, j ≠ k → (s.append b).readBuf j = s.readBuf j := by
  obtain ⟨k', hk', hlen, e⟩ | ⟨hn, -⟩ := s.append_cases b
  · cases hk.symm.trans hk'
    have hcount : (s.len + 1).toNat = s.len.toNat + 1 := s.len_succ_toNat (by omega)
    exact ⟨by simp [e], by rw [e, State.setLen_len, hcount],
      fun j hj => s.append_readBuf_other b j fun hi => hj (Option.some.inj (hi.symm.trans hk))⟩
  · cases hk.symm.trans hn

/-- APPEND without room: `len` saturates at 19 and the byte is dropped (R127). -/
theorem State.append_dropped (hn : s.appendIndex = none) : (s.append b).len = 19#5 ∧ SameBuffer (s.append b) s := by
  have e : s.append b = s.setLen 19#5 := by simp [State.append, hn, Config.lenSat]
  rw [e]
  exact ⟨rfl, fun _ => rfl⟩

end Append

/-- Settles O6: DATA is APPEND of its byte. -/
theorem dataAppendsItsByte : Obligations.DataAppendsItsByte := by
  refine ⟨fun b h8 hD hA => select_normal_data ?_, fun b s => ⟨_, rfl, s.append_esc b, State.append_sameSurroundings b, rfl,
    fun _ hk => State.append_stored b hk, State.append_dropped b⟩⟩
  rw [← Bool.not_eq_true, isControl_iff]
  simp [h8, hD, hA]

/-- Settles O7: LIT is APPEND of its byte, then `esc` cleared. -/
theorem litAppendsAnyByteAndClearsEsc : Obligations.LitAppendsAnyByteAndClearsEsc :=
  ⟨select_escaped, fun b _ => ⟨_, rfl, rfl, State.append_sameSurroundings b, rfl, fun _ hk => State.append_stored b hk,
    State.append_dropped b⟩⟩

end Sys2Proof.Machine

/-! PROOFS. What PARSE reads and tests: the fields of a packet as its bytes give them (spec/30_encoding.md R54, R88 to R93), and
the range checks on exact numbers (spec/41_packet_decoder.md R153, R160; spec/43_validation.md R200). -/

namespace Sys2Proof

/-! ### The fields of a packet (R54, R88) -/

section Fields

variable {a c : List Byte}

@[simp] theorem fieldCount_zero (bytes : List Byte) (o : Nat) : fieldCount bytes o 0 = 0 := by simp [fieldCount, leCount]

/-- A field is its first byte and 256 times the field after that byte; past the end of the packet both are 0. -/
theorem fieldCount_succ (bytes : List Byte) (o n : Nat) :
    fieldCount bytes o (n + 1) = (byteAt bytes o).toNat + 256 * fieldCount bytes (o + 1) n := by
  by_cases ho : o < bytes.length
  · rw [fieldCount, List.drop_eq_getElem_cons ho, List.take_succ_cons, leCount, byteAt, List.getD_eq_getElem _ _ ho]
    rfl
  · have hdrop : bytes.drop o = [] := List.drop_eq_nil_of_le (by omega)
    have hdrop' : bytes.drop (o + 1) = [] := List.drop_eq_nil_of_le (by omega)
    rw [fieldCount, fieldCount, hdrop, hdrop', byteAt, List.getD_eq_default _ _ (by omega)]
    simp [leCount]

/-- A field of `n` bytes fits in `8 * n` bits. -/
theorem fieldCount_lt (bytes : List Byte) (o n : Nat) : fieldCount bytes o n < 2 ^ (8 * n) := by
  induction n generalizing o with
  | zero => simp
  | succ n ih =>
    have hrest := ih (o + 1)
    have hbyte := (byteAt bytes o).isLt
    rw [fieldCount_succ, Nat.mul_succ, pow_add]
    omega

/-- A field depends on its own bytes alone. -/
theorem fieldCount_congr {o n : Nat} (h : ∀ k < n, byteAt a (o + k) = byteAt c (o + k)) :
    fieldCount a o n = fieldCount c o n := by
  induction n generalizing o with
  | zero => simp
  | succ n ih =>
    have hfirst : byteAt a o = byteAt c o := h 0 (by omega)
    have hrest : fieldCount a (o + 1) n = fieldCount c (o + 1) n := ih fun k hk => by
      simpa only [Nat.add_assoc, Nat.add_comm 1] using h (k + 1) (by omega)
    rw [fieldCount_succ, fieldCount_succ, hfirst, hrest]

end Fields

/-! ### Comparison of exact numbers -/

theorem Frac.den_cast_pos {v : Frac} (hv : v.den ≠ 0) : (0 : Rat) < v.den := Nat.cast_pos.mpr (Nat.pos_of_ne_zero hv)

theorem Frac.less_iff {u v : Frac} (hu : u.den ≠ 0) (hv : v.den ≠ 0) : Frac.less u v = true ↔ u.toRat < v.toRat := by
  rw [Frac.less, decide_eq_true_eq, Frac.toRat, Frac.toRat, div_lt_div_iff₀ (Frac.den_cast_pos hu) (Frac.den_cast_pos hv)]
  exact_mod_cast Iff.rfl

theorem Frac.atMost_iff {u v : Frac} (hu : u.den ≠ 0) (hv : v.den ≠ 0) : Frac.atMost u v = true ↔ u.toRat ≤ v.toRat := by
  rw [Frac.atMost, decide_eq_true_eq, Frac.toRat, Frac.toRat, div_le_div_iff₀ (Frac.den_cast_pos hu) (Frac.den_cast_pos hv)]
  exact_mod_cast Iff.rfl

namespace Machine

/-! ### Operands of PARSE by their bytes (R88 to R93) -/

section Operands

variable (bytes : List Byte)

theorem tempRawOf_toNat : (tempRawOf bytes).toNat =
    (byteAt bytes 1).toNat + 2 ^ 8 * (byteAt bytes 2).toNat + 2 ^ 16 * (byteAt bytes 3).toNat +
      2 ^ 24 * (byteAt bytes 4).toNat := by
  rw [tempRawOf, BitVec.toNat_ofNat, Nat.mod_eq_of_lt (fieldCount_lt bytes 1 4)]
  simp only [fieldCount_succ, fieldCount_zero]
  ring

/-- A field of two bytes, in a register of 16 bits. -/
theorem ofNat_fieldCount_two_toNat (o : Nat) : (BitVec.ofNat 16 (fieldCount bytes o 2)).toNat =
    (byteAt bytes o).toNat + 2 ^ 8 * (byteAt bytes (o + 1)).toNat := by
  rw [BitVec.toNat_ofNat, Nat.mod_eq_of_lt (fieldCount_lt bytes o 2)]
  simp [fieldCount_succ]

theorem rtdRawOf_toNat : (rtdRawOf bytes).toNat = (byteAt bytes 11).toNat + 2 ^ 8 * (byteAt bytes 12).toNat :=
  ofNat_fieldCount_two_toNat bytes 11

theorem tcRawOf_toNat : (tcRawOf bytes).toNat = (byteAt bytes 13).toNat + 2 ^ 8 * (byteAt bytes 14).toNat :=
  ofNat_fieldCount_two_toNat bytes 13

theorem battRawOf_toNat : (battRawOf bytes).toNat = (byteAt bytes 15).toNat + 2 ^ 8 * (byteAt bytes 16).toNat :=
  ofNat_fieldCount_two_toNat bytes 15

theorem devBytes_getElem (k : Fin 4) : (devBytes bytes)[k] = byteAt bytes (7 + k.val) := by
  fin_cases k <;> rfl

end Operands

/-- `res_q` is 25 times the count without loss: 25 * 65535 has 21 bits (R91). -/
theorem resQOf_toNat (raw : BitVec 16) : (resQOf raw).toNat = 25 * raw.toNat := by
  have hraw := raw.isLt
  rw [resQOf, BitVec.toNat_ofNat, Config.resMul]
  omega

/-! ### Range checks on exact values (R153, R160, R200) -/

theorem temperatureOf_den_ne_zero (raw : BitVec 32) : (temperatureOf raw).den ≠ 0 := by simp [temperatureOf, Config.tempDiv]

theorem voltageOf_den_ne_zero (raw : BitVec 16) : (voltageOf raw).den ≠ 0 := by simp [voltageOf, Config.battDiv]

theorem outside_iff {lo hi v : Frac} (hlo : lo.den ≠ 0) (hhi : hi.den ≠ 0) (hv : v.den ≠ 0) :
    outside lo hi v = true ↔ v.toRat < lo.toRat ∨ hi.toRat < v.toRat := by
  rw [outside, Bool.or_eq_true, Frac.less_iff hv hlo, Frac.less_iff hhi hv]

theorem tempAdvOf_iff (raw : BitVec 32) :
    tempAdvOf raw = true ↔ (temperatureOf raw).toRat < -100 ∨ 100 < (temperatureOf raw).toRat := by
  rw [tempAdvOf, outside_iff (by decide) (by decide) (temperatureOf_den_ne_zero raw)]
  simp [Frac.toRat, Config.tempAdvMin, Config.tempAdvMax]

theorem battAdvOf_iff (raw : BitVec 16) :
    battAdvOf raw = true ↔ (voltageOf raw).toRat < 0 ∨ 10 < (voltageOf raw).toRat := by
  rw [battAdvOf, outside_iff (by decide) (by decide) (voltageOf_den_ne_zero _)]
  simp [Frac.toRat, Config.battMin, Config.battMax]

/-- VALIDATE of a number is the closed range and the length (R200). -/
theorem valid_iff {v : Frac} (hv : v.den ≠ 0) (n : Nat) : valid v n = true ↔ 0 ≤ v.toRat ∧ v.toRat ≤ 10 ∧ n = 18 := by
  have hmin : Config.battMin.toRat = 0 := by simp [Frac.toRat, Config.battMin]
  have hmax : Config.battMax.toRat = 10 := by simp [Frac.toRat, Config.battMax]
  simp only [valid, Bool.and_eq_true, Frac.atMost_iff (by decide : Config.battMin.den ≠ 0) hv,
    Frac.atMost_iff hv (by decide : Config.battMax.den ≠ 0), hmin, hmax]
  simp [Frac.isNumber, hv, Config.frameLen, and_assoc]

theorem calMissOf_iff (rsp : LookupResult) : calMissOf rsp = true ↔ rsp = .invalidInput := by
  cases rsp <;> simp [calMissOf]

end Machine

end Sys2Proof

/-! PROOFS. PARSE (spec/41_packet_decoder.md R151): its answer as one function of the packet, by the exact voltage; that answer
for packets that differ in reserved bytes alone (R165). -/

namespace Sys2Proof.Machine

open Sys2Proof Sys2Proof.Safety

/-- What LOOKUP answers in step 5. -/
def lookupOf (rom : List RomWord) (bytes : List Byte) : LookupResult := lookup rom (resistanceOf (rtdRawOf bytes))

/-- The advisory flags after step 6. -/
def advOf (rom : List RomWord) (bytes : List Byte) : Adv :=
  { tempAdv := tempAdvOf (tempRawOf bytes)
    battAdv := battAdvOf (battRawOf bytes)
    calMiss := calMissOf (lookupOf rom bytes) }

/-- Step 7's choice between the reading and InvalidSensorData. -/
def verdictOf (rom : List RomWord) (bytes : List Byte) : ParseResult :=
  if valid (voltageOf (battRawOf bytes)) 18 then .ok (readingOf bytes (lookupOf rom bytes)) else .err .invalidSensorData

/-- 18 bytes reach step 7, whatever they are. -/
theorem parse_out_of_length (rom : List RomWord) {bytes : List Byte} (h : bytes.length = 18) :
    (parse rom (some bytes)).out = .result (verdictOf rom bytes) (advOf rom bytes) := by
  obtain ⟨-, hne⟩ | ⟨_, hb, -, e⟩ := parse_cases rom (some bytes)
  · exact absurd h (hne bytes rfl)
  · cases hb
    rw [e, parseFromLookup, verdictOf]
    simp only [readingOf, Reading.batteryVoltage, h]
    split <;> rfl

/-- A packet that is absent or has not 18 bytes ends at step 1 (R152). -/
theorem parse_of_not_length {pkt : Option (List Byte)} (rom : List RomWord)
    (hne : ∀ bytes, pkt = some bytes → bytes.length ≠ 18) : parse rom pkt = raiseError .invalidLength Progress.start := by
  obtain ⟨e, -⟩ | ⟨bytes, hb, h, -⟩ := parse_cases rom pkt
  · exact e
  · exact absurd h (hne bytes hb)

theorem verdictOf_valid (rom : List RomWord) {bytes : List Byte} (h0 : 0 ≤ (voltageOf (battRawOf bytes)).toRat)
    (h10 : (voltageOf (battRawOf bytes)).toRat ≤ 10) : verdictOf rom bytes = .ok (readingOf bytes (lookupOf rom bytes)) :=
  if_pos ((valid_iff (voltageOf_den_ne_zero _) 18).mpr ⟨h0, h10, rfl⟩)

theorem verdictOf_invalid (rom : List RomWord) {bytes : List Byte}
    (h : (voltageOf (battRawOf bytes)).toRat < 0 ∨ 10 < (voltageOf (battRawOf bytes)).toRat) :
    verdictOf rom bytes = .err .invalidSensorData := by
  refine if_neg fun hv => ?_
  obtain ⟨h0, h10, -⟩ := (valid_iff (voltageOf_den_ne_zero _) 18).mp hv
  exact h.elim (not_lt.mpr h0) (not_lt.mpr h10)

theorem onlySignals_present (s : State) (sg : Signals) : OnlySignals (s.present sg) s :=
  ⟨rfl, rfl, fun _ => rfl, rfl, rfl, rfl, rfl⟩

/-- Settles O10: without 18 bytes PARSE ends at step 1; with 18 it ends at step 7, by the exact voltage. -/
theorem parseFollowsItsSteps : Obligations.ParseFollowsItsSteps := by
  refine ⟨fun pkt s hne => ⟨_, rfl, onlySignals_present s _, parse_of_not_length s.rom hne⟩, ?_⟩
  intro bytes s h b temp rtd tc batt found volts
  have htemp : (temperatureOf (tempRawOf bytes)).toRat = (temp : Rat) / 10000 := by
    rw [Frac.toRat, temperatureOf, tempRawOf_toNat]; rfl
  have hvolts : (voltageOf (battRawOf bytes)).toRat = volts := by
    rw [Frac.toRat, voltageOf, battRawOf_toNat]; rfl
  have hfound : lookupOf s.rom bytes = found := by
    rw [lookupOf, resistanceOf, rtdRawOf_toNat]; rfl
  have hout : (parse s.rom (some bytes)).out = .result (verdictOf s.rom bytes) (advOf s.rom bytes) :=
    parse_out_of_length s.rom h
  refine ⟨_, rfl, onlySignals_present s _, advOf s.rom bytes, ?_, ?_, ?_, fun hbad => ?_, fun h0 h10 => ?_⟩
  · rw [← htemp]
    exact tempAdvOf_iff _
  · rw [← hvolts]
    exact battAdvOf_iff _
  · rw [← hfound]
    exact calMissOf_iff _
  · rw [← verdictOf_invalid s.rom (by rwa [hvolts])]
    exact hout
  · refine ⟨readingOf bytes (lookupOf s.rom bytes), ?_, tempRawOf_toNat bytes, devBytes_getElem bytes, ?_,
      tcRawOf_toNat bytes, battRawOf_toNat bytes, rfl, fun v hv => ?_, fun hv => ?_⟩
    · rw [← verdictOf_valid s.rom (by rwa [hvolts]) (by rwa [hvolts])]
      exact hout
    · rw [readingOf, resQOf_toNat, rtdRawOf_toNat]; rfl
    · rw [hfound, hv]; rfl
    · rw [hfound, hv]; rfl

/-- Settles O16: the two ways PARSE ends are InvalidLength and step 7's verdict (R156). -/
theorem invalidSensorValueNeverAppears : Obligations.InvalidSensorValueNeverAppears := by
  intro rom pkt adv
  obtain ⟨e, -⟩ | ⟨bytes, rfl, h, -⟩ := parse_cases rom pkt
  · rw [e]
    simp [raiseError, Progress.finish]
  · rw [parse_out_of_length rom h, verdictOf]
    split <;> simp

/-! ### Reserved bytes (R165) -/

/-- Two packets agree on every byte that is not reserved. -/
def SameButReserved (a c : List Byte) : Prop :=
  ∀ o, o ≠ 0 → o ≠ 5 → o ≠ 6 → o ≠ 17 → byteAt a o = byteAt c o

section Reserved

variable {a c : List Byte} (h : SameButReserved a c)
include h

theorem SameButReserved.byteAt_eq {o : Nat} (ho : o ∉ [0, 5, 6, 17]) : byteAt a o = byteAt c o := by
  simp only [List.mem_cons, List.not_mem_nil, or_false, not_or] at ho
  obtain ⟨h0, h5, h6, h17⟩ := ho
  exact h o h0 h5 h6 h17

theorem SameButReserved.fieldCount_eq {o n : Nat} (ho : ∀ k < n, o + k ∉ [0, 5, 6, 17]) :
    fieldCount a o n = fieldCount c o n :=
  fieldCount_congr fun k hk => h.byteAt_eq (ho k hk)

theorem SameButReserved.tempRawOf_eq : tempRawOf a = tempRawOf c := by
  rw [tempRawOf, tempRawOf, h.fieldCount_eq (by decide)]

theorem SameButReserved.rtdRawOf_eq : rtdRawOf a = rtdRawOf c := by
  rw [rtdRawOf, rtdRawOf, h.fieldCount_eq (by decide)]

theorem SameButReserved.tcRawOf_eq : tcRawOf a = tcRawOf c := by
  rw [tcRawOf, tcRawOf, h.fieldCount_eq (by decide)]

theorem SameButReserved.battRawOf_eq : battRawOf a = battRawOf c := by
  rw [battRawOf, battRawOf, h.fieldCount_eq (by decide)]

theorem SameButReserved.devBytes_eq : devBytes a = devBytes c := by
  rw [devBytes, devBytes, h.byteAt_eq (o := 7) (by decide), h.byteAt_eq (o := 8) (by decide),
    h.byteAt_eq (o := 9) (by decide), h.byteAt_eq (o := 10) (by decide)]

theorem SameButReserved.advOf_eq (rom : List RomWord) : advOf rom a = advOf rom c := by
  simp only [advOf, lookupOf, h.tempRawOf_eq, h.battRawOf_eq, h.rtdRawOf_eq]

theorem SameButReserved.readingOf_eq (rsp : LookupResult) : readingOf c rsp = { readingOf a rsp with rawPacket := c } := by
  simp only [readingOf, h.tempRawOf_eq, h.devBytes_eq, h.rtdRawOf_eq, h.tcRawOf_eq, h.battRawOf_eq]

theorem SameButReserved.verdictOf_eq (rom : List RomWord) : verdictOf rom c =
    if valid (voltageOf (battRawOf a)) 18 then .ok { readingOf a (lookupOf rom a) with rawPacket := c }
    else .err .invalidSensorData := by
  rw [verdictOf, lookupOf, ← h.battRawOf_eq, ← h.rtdRawOf_eq, ← lookupOf, h.readingOf_eq]

end Reserved

/-- Settles O13: every field and flag of PARSE reads bytes that are not reserved. -/
theorem reservedBytesOnlyReachRawPacket : Obligations.ReservedBytesOnlyReachRawPacket := by
  intro rom a c ha hc hac
  have h : SameButReserved a c := hac
  rw [parse_out_of_length rom ha, parse_out_of_length rom hc, h.verdictOf_eq, h.advOf_eq, verdictOf]
  constructor
  · intro e adv he
    split at he
    · cases he
    · rwa [if_neg ‹_›]
  · intro r adv hr
    split at hr
    · cases hr
      rw [if_pos ‹_›]
    · cases hr

end Sys2Proof.Machine

/-! PROOFS. DevText (spec/41_packet_decoder.md R163): `dec` is the library's decimal numeral, of 1 to 3 digits for a byte. -/

namespace Sys2Proof.Machine

open Sys2Proof

theorem digit_eq_digitChar : ∀ n < 10, digit n = n.digitChar := by decide

/-- `dec` is the shortest decimal numeral: one, two or three digits by the size of the byte. -/
theorem decimal_eq_toDigits (d : Byte) : decimal d = Nat.toDigits 10 d.toNat := by
  have hd := d.isLt
  rw [decimal]
  split
  · rw [digit_eq_digitChar _ (by omega), digit_eq_digitChar _ (by omega), digit_eq_digitChar _ (by omega),
      Nat.toDigits_of_base_le (by decide) (by omega), Nat.toDigits_of_base_le (by decide) (by omega),
      Nat.toDigits_of_lt_base (by omega), Nat.div_div_eq_div_mul]
    rfl
  · split
    · rw [digit_eq_digitChar _ (by omega), digit_eq_digitChar _ (by omega),
        Nat.toDigits_of_base_le (by decide) (by omega), Nat.toDigits_of_lt_base (by omega)]
      rfl
    · rw [digit_eq_digitChar _ (by omega), Nat.toDigits_of_lt_base (by omega)]

theorem decimal_length (d : Byte) : 1 ≤ (decimal d).length ∧ (decimal d).length ≤ 3 := by
  rw [decimal_eq_toDigits]
  exact ⟨Nat.length_toDigits_pos, Nat.toDigits_length 10 _ 3 (by decide) (d.isLt.trans (by decide))⟩

/-- Settles O23: the numerals are those of `Nat.repr`, 1 to 3 characters each, with three spaces between them. -/
theorem devTextIsPlainDecimals : Obligations.DevTextIsPlainDecimals := by
  intro d
  refine ⟨?_, ?_⟩
  · have hspace : " " = String.ofList [' '] := rfl
    simp only [devText, devChars, decimal_eq_toDigits, Nat.repr_eq_ofList_toDigits, hspace, ← String.ofList_append]
    simp
  · have hlen : (devText d).length =
        (decimal d[0]).length + (decimal d[1]).length + (decimal d[2]).length + (decimal d[3]).length + 3 := by
      rw [devText, String.length_ofList, devChars]
      simp only [List.length_append, List.length_cons]
      omega
    have h0 := decimal_length d[0]
    have h1 := decimal_length d[1]
    have h2 := decimal_length d[2]
    have h3 := decimal_length d[3]
    omega

end Sys2Proof.Machine

/-! PROOFS. LOOKUP (spec/42_rtd_lookup.md R181, R183): the scan keeps the lowest nearest index of the entries it has seen, and its
integer distances are the exact ones in a fixed unit. -/

namespace Sys2Proof.Machine

open Sys2Proof Sys2Proof.Safety

/-- Of the indices below `n`, `i` is the lowest at which `d` is least. -/
def IsLowestNearest (d : Nat → Nat) (n i : Nat) : Prop :=
  i < n ∧ (∀ j < n, d i ≤ d j) ∧ ∀ j < i, d i < d j

section Scan

variable {d : Nat → Nat} {n i : Nat}

theorem isLowestNearest_one (d : Nat → Nat) : IsLowestNearest d 1 0 :=
  ⟨Nat.one_pos, fun j hj => by rw [Nat.lt_one_iff.mp hj], fun j hj => absurd hj (Nat.not_lt_zero j)⟩

/-- A strictly nearer entry takes over. -/
theorem IsLowestNearest.replace (h : IsLowestNearest d n i) (hn : d n < d i) : IsLowestNearest d (n + 1) n := by
  obtain ⟨-, hleast, -⟩ := h
  have hlt : ∀ j < n, d n < d j := fun j hj => hn.trans_le (hleast j hj)
  exact ⟨n.lt_succ_self, Nat.forall_lt_succ_right.mpr ⟨fun j hj => (hlt j hj).le, le_rfl⟩, hlt⟩

/-- An entry that is no nearer, a tie among them, changes nothing (R183). -/
theorem IsLowestNearest.keep (h : IsLowestNearest d n i) (hn : d i ≤ d n) : IsLowestNearest d (n + 1) i := by
  obtain ⟨hi, hleast, hlow⟩ := h
  exact ⟨hi.trans n.lt_succ_self, Nat.forall_lt_succ_right.mpr ⟨hleast, hn⟩, hlow⟩

/-- The scan's invariant: from the lowest nearest of the first `n` entries it goes to that of all. -/
theorem scan_isLowestNearest (r : Frac) (ws : List RomWord) (hd : ∀ k (hk : k < ws.length), d (n + k) = distance r ws[k])
    (h : IsLowestNearest d n i) : IsLowestNearest d (n + ws.length) (scan r ws n i (d i)) := by
  induction ws generalizing n i with
  | nil => exact h
  | cons w ws ih =>
    have hw : d n = distance r w := hd 0 (Nat.succ_pos _)
    have hws : ∀ k (hk : k < ws.length), d (n + 1 + k) = distance r ws[k] := fun k hk => by
      rw [Nat.add_right_comm]
      exact hd (k + 1) (Nat.succ_lt_succ hk)
    rw [scan, ← hw, List.length_cons, Nat.add_comm ws.length, ← Nat.add_assoc]
    split
    · exact ih hws (h.replace ‹_›)
    · exact ih hws (h.keep (not_lt.mp ‹_›))

end Scan

/-- LOOKUP of a number at or above 0 on a non-empty ROM answers the lowest nearest index, by integer distance. -/
theorem lookup_eq_lowestNearest {rom : List RomWord} {r : Frac} (hr : r.den ≠ 0) (h0 : 0 ≤ r.num) (hrom : rom ≠ []) :
    ∃ i : Nat, lookup rom r = .ok (i - Config.tOffset) ∧
      IsLowestNearest (fun j => distance r (rom.getD j 0#24)) rom.length i := by
  obtain ⟨-, hbad⟩ | ⟨w, ws, rfl, -, -, e⟩ := lookup_cases rom r
  · have hnum : r.isNumber ≠ false := by simp [Frac.isNumber, hr]
    exact absurd hbad (by simp [hrom, hnum, h0])
  · refine ⟨_, e, ?_⟩
    rw [List.length_cons, Nat.add_comm]
    refine scan_isLowestNearest r ws (fun k hk => ?_) (isLowestNearest_one _)
    rw [Nat.add_comm, List.getD_cons_succ, List.getD_eq_getElem _ _ hk]

theorem distanceUnit_pos {r : Frac} (hr : r.den ≠ 0) : (0 : Rat) < 10000 * r.den :=
  mul_pos (by norm_num) (Frac.den_cast_pos hr)

/-- The scan's integer distance is the exact distance in units of `1 / (10000 * r.den)` ohm. -/
theorem distance_eq_mul_abs {r : Frac} (hr : r.den ≠ 0) (w : RomWord) :
    (distance r w : Rat) = (10000 * r.den) * |(ohms w).toRat - r.toRat| := by
  have hden := Frac.den_cast_pos hr
  have hdiff : (w.toNat * r.den - 10000 * r.num : Rat) = 10000 * r.den * ((ohms w).toRat - r.toRat) := by
    simp only [Frac.toRat, ohms, Config.romDiv]
    field_simp
    push_cast
    ring
  calc (distance r w : Rat)
    _ = |(w.toNat * r.den - 10000 * r.num : Rat)| := by
      rw [distance, Nat.cast_natAbs]
      push_cast [Config.romDiv]
      rfl
    _ = 10000 * r.den * |(ohms w).toRat - r.toRat| := by rw [hdiff, abs_mul, abs_of_pos (distanceUnit_pos hr)]

theorem distance_le_iff {r : Frac} (hr : r.den ≠ 0) (w w' : RomWord) :
    distance r w ≤ distance r w' ↔ |(ohms w).toRat - r.toRat| ≤ |(ohms w').toRat - r.toRat| := by
  rw [← Nat.cast_le (α := Rat), distance_eq_mul_abs hr, distance_eq_mul_abs hr, mul_le_mul_iff_right₀ (distanceUnit_pos hr)]

theorem distance_lt_iff {r : Frac} (hr : r.den ≠ 0) (w w' : RomWord) :
    distance r w < distance r w' ↔ |(ohms w).toRat - r.toRat| < |(ohms w').toRat - r.toRat| := by
  rw [← not_le, distance_le_iff hr, not_le]

/-- Settles O17: the scan's index is the lowest nearest by integer distance, which orders the entries as the exact one does. -/
theorem lookupFindsLowestNearestIndex : Obligations.LookupFindsLowestNearestIndex := by
  intro r s hr h0 hrom
  obtain ⟨i, hlookup, hi, hleast, hlow⟩ := lookup_eq_lowestNearest hr h0 hrom
  refine ⟨_, i, rfl, onlySignals_present s _, ?_, hi, fun j hj => ?_, fun j hj => ?_⟩
  · rw [State.present_sig, hlookup]
    rfl
  · exact (distance_le_iff hr _ _).mp (hleast j hj)
  · exact (distance_lt_iff hr _ _).mp (hlow j hj)

end Sys2Proof.Machine

/-! PROOFS. VALIDATE (spec/43_validation.md R201, R204): its range in battery counts, and that PARSE of 18 bytes tests nothing
else. -/

namespace Sys2Proof.Machine

open Sys2Proof

/-- In units of 1/1000 V the range of R200 is counts up to 10000; an unsigned count has no lower bound to miss (R201). -/
theorem valid_voltageOf_iff (raw : BitVec 16) : valid (voltageOf raw) 18 = true ↔ raw.toNat ≤ 10000 := by
  have hvolts : (voltageOf raw).toRat = (raw.toNat : Rat) / 1000 := rfl
  have hlow : (0 : Rat) ≤ (raw.toNat : Rat) / 1000 := by positivity
  have hhigh : (raw.toNat : Rat) / 1000 ≤ 10 ↔ raw.toNat ≤ 10000 := by
    rw [div_le_iff₀ (by norm_num), ← Nat.cast_le (α := Rat)]
    norm_num
  rw [valid_iff (voltageOf_den_ne_zero raw), hvolts, hhigh]
  simp [hlow]

/-- Step 7 accepts what VALIDATE accepts (R161). -/
theorem verdictOf_ok_iff (rom : List RomWord) (bytes : List Byte) :
    (∃ r, verdictOf rom bytes = .ok r) ↔ valid (voltageOf (battRawOf bytes)) 18 = true := by
  rw [verdictOf]
  split <;> simp [*]

/-- PARSE of 18 bytes presents a reading exactly when step 7 accepts one. -/
theorem parse_accepts_iff (rom : List RomWord) {bytes : List Byte} (h : bytes.length = 18) :
    (∃ r adv, (parse rom (some bytes)).out = .result (.ok r) adv) ↔ ∃ r, verdictOf rom bytes = .ok r := by
  rw [parse_out_of_length rom h]
  simp

/-- Settles O14: 18 bytes reach step 7, whose VALIDATE reads the count at offsets 15 and 16 alone. -/
theorem onlyTheBatteryRejects : Obligations.OnlyTheBatteryRejects := by
  intro rom bytes h
  rw [parse_accepts_iff rom h, verdictOf_ok_iff, valid_voltageOf_iff, battRawOf_toNat]
  rfl

/-- Settles O22: the four boundary voltages are evaluated, and a count is tested in units of 1/1000 V. -/
theorem batteryBoundaries : Obligations.BatteryBoundaries :=
  ⟨by decide, by decide, by decide, by decide, valid_voltageOf_iff⟩

end Sys2Proof.Machine

/-! PROOFS. The output ports (spec/45_pipeline.md R225, spec/60_exceptions.md R256): what each output event shows on the four
ports that say which event it is; the field ports of a reading leave these four alone. -/

namespace Sys2Proof.Machine

open Sys2Proof

section EventPorts

variable (res : ParseResult) (p : OutPorts)

@[simp] theorem ParseResult.onPorts_outValid : (res.onPorts p).outValid = p.outValid := by cases res <;> rfl
@[simp] theorem ParseResult.onPorts_outStatus : (res.onPorts p).outStatus = p.outStatus := by cases res <;> rfl
@[simp] theorem ParseResult.onPorts_outAdv : (res.onPorts p).outAdv = p.outAdv := by cases res <;> rfl
@[simp] theorem ParseResult.onPorts_frmDiscard : (res.onPorts p).frmDiscard = p.frmDiscard := by cases res <;> rfl

end EventPorts

/-- A discard shows the idle ports but for `frm_discard` (R225). -/
theorem State.outPorts_of_discard {s : State} (h : s.sig.out = .discard) :
    s.outPorts = { idlePorts s.tick with frmDiscard := true } := by
  simp [State.outPorts, h]

/-- A Result shows its status code and its advisory bits, and its reading on the field ports (R225). -/
theorem State.outPorts_of_result {s : State} {res : ParseResult} {adv : Adv} (h : s.sig.out = .result res adv) :
    s.outPorts =
      res.onPorts { idlePorts s.tick with outValid := true, outStatus := statusCode res, outAdv := adv.bits } := by
  simp [State.outPorts, h]

/-- `out_valid` is 1 with a Result alone. -/
theorem State.outValid_iff (s : State) : s.outPorts.outValid = true ↔ ∃ res adv, s.sig.out = .result res adv := by
  cases h : s.sig.out with
  | nothing => simp [outPorts_of_nothing h, idlePorts]
  | discard => simp [outPorts_of_discard h, idlePorts]
  | result res adv => simp [outPorts_of_result h]

/-- `frm_discard` is 1 with a Discard alone. -/
theorem State.frmDiscard_iff (s : State) : s.outPorts.frmDiscard = true ↔ s.sig.out = .discard := by
  cases h : s.sig.out with
  | nothing => simp [outPorts_of_nothing h, idlePorts]
  | discard => simp [outPorts_of_discard h]
  | result res adv => simp [outPorts_of_result h, idlePorts]

/-- Code 0 is that of readings (R256). -/
theorem statusCode_eq_zero_iff (res : ParseResult) : statusCode res = 0#2 ↔ ∃ r, res = .ok r := by
  cases res with
  | ok r => simp [statusCode]
  | err e => cases e <;> simp [statusCode]

/-- The code of an error is that error's alone (R256). -/
theorem statusCode_eq_err_iff (res : ParseResult) (e : ParseError) : statusCode res = statusCode (.err e) ↔ res = .err e := by
  cases res with
  | ok r => cases e <;> simp [statusCode]
  | err e' => cases e' <;> cases e <;> decide

/-- The advisory bits in order, `temp_adv` lowest (R225). -/
theorem Adv.bits_getLsbD (a : Adv) :
    a.bits.getLsbD 0 = a.tempAdv ∧ a.bits.getLsbD 1 = a.battAdv ∧ a.bits.getLsbD 2 = a.calMiss := by
  obtain ⟨tempAdv, battAdv, calMiss⟩ := a
  revert tempAdv battAdv calMiss
  decide

/-- Settles O50: each event determines the two event ports, and a Result's code and advisory bits determine their parts. -/
theorem outputPortsOfEvents : Obligations.OutputPortsOfEvents := by
  intro s
  refine ⟨s.outValid_iff, s.frmDiscard_iff, fun res adv h => ?_⟩
  have hstatus : s.outPorts.outStatus = statusCode res := by simp [State.outPorts_of_result h]
  have hadv : s.outPorts.outAdv = adv.bits := by simp [State.outPorts_of_result h]
  rw [hstatus, hadv]
  exact ⟨statusCode_eq_zero_iff res, statusCode_eq_err_iff res .invalidLength, statusCode_eq_err_iff res .invalidSensorValue,
    statusCode_eq_err_iff res .invalidSensorData, adv.bits_getLsbD⟩

end Sys2Proof.Machine

/-! PROOFS. The encodings are undone by the decoder (spec/30_encoding.md sections 1, 5 and 6): the packed buses byte by byte, the
scaled operands by their widths, and the stream of a FRAME by removing what `Stuff` put in. -/

namespace Sys2Proof

/-! ### Packed buses (R225, R232) -/

/-- Bit `i` of a packed bus is bit `i % 8` of byte `i / 8`. -/
theorem packBytes_getLsbD (w : Nat) (bytes : List Byte) (i : Nat) :
    (packBytes w bytes).getLsbD i = (decide (i < w) && (byteAt bytes (i / 8)).getLsbD (i % 8)) := by
  induction bytes generalizing i with
  | nil => simp [packBytes, byteAt]
  | cons b bytes ih =>
    rw [packBytes, BitVec.getLsbD_or, BitVec.getLsbD_setWidth, BitVec.getLsbD_shiftLeft, ih]
    by_cases hi : i < 8
    · have hdiv : i / 8 = 0 := by omega
      have hmod : i % 8 = i := by omega
      simp [hi, hdiv, hmod, byteAt]
    · have hdiv : i / 8 = (i - 8) / 8 + 1 := by omega
      have hmod : i % 8 = (i - 8) % 8 := by omega
      have hb : b.getLsbD i = false := b.getLsbD_of_ge i (by omega)
      by_cases hw : i < w
      · have hw' : i - 8 < w := by omega
        simp [hi, hdiv, hmod, hb, byteAt, hw, hw']
      · simp [hw]

/-- Byte `k` of a packed bus that is wide enough for it. -/
theorem packBytes_extract {w k : Nat} (bytes : List Byte) (h : 8 * k + 8 ≤ w) :
    (packBytes w bytes).extractLsb' (8 * k) 8 = byteAt bytes k := by
  ext j hj
  have hlt : 8 * k + j < w := by omega
  have hdiv : (8 * k + j) / 8 = k := by omega
  have hmod : (8 * k + j) % 8 = j := by omega
  rw [BitVec.getElem_extractLsb', packBytes_getLsbD, hdiv, hmod, ← BitVec.getLsbD_eq_getElem]
  simp [hlt]

/-- A packet of up to 18 bytes is read back from the FRM to PAR interface. -/
theorem busPacket_packBytes {bytes : List Byte} (h : bytes.length ≤ 18) :
    busPacket (BitVec.ofNat 5 bytes.length) (packBytes 144 bytes) = bytes := by
  have hlen : (BitVec.ofNat 5 bytes.length).toNat = bytes.length := Nat.mod_eq_of_lt (by omega)
  apply List.ext_getElem
  · simp [busPacket, hlen]
  · intro k hk hk'
    have hbyte : busByte (packBytes 144 bytes) k = byteAt bytes k := packBytes_extract bytes (by omega)
    simpa [busPacket, byteAt, hk'] using hbyte

/-! ### The stream of a FRAME (R86, R101, R102) -/

/-- `Stuff` of one byte is that byte again, control code or not. -/
theorem unstuff_stuff (b : Byte) (rest : List Byte) :
    unstuff false (stuff b ++ rest) = (unstuff false rest).map (b :: ·) := by
  cases hb : isControl b with
  | true => simp [stuff, hb, unstuff]
  | false =>
    have hne := hb
    simp only [isControl, Bool.or_eq_false_iff] at hne
    simp [stuff, hb, unstuff, hne]

theorem unstuff_stuffAll (data : List Byte) : unstuff false (stuffAll data ++ [Config.eofCode]) = .ok data := by
  induction data with
  | nil => rfl
  | cons b data ih => rw [stuffAll, List.append_assoc, unstuff_stuff, ih]; rfl

theorem decodeFrame_frameStream (f : FrameArgs) : decodeFrame (frameStream f) = .ok f := by
  have hbody : (encodePacket f).length = Config.frameLen := rfl
  simp [decodeFrame, frameStream, unstuff_stuffAll, hbody, frameArgsOf_encodePacket]

/-! ### Scaled operands (R91, R93) -/

/-- A non-negative number that fits in the width of its interface is read back from it. -/
theorem toNat_ofInt_cast {w : Nat} {z : Int} (h0 : 0 ≤ z) (hlt : z < 2 ^ w) : ((BitVec.ofInt w z).toNat : Int) = z := by
  rw [BitVec.toNat_ofInt, Int.toNat_of_nonneg (Int.emod_nonneg _ (by positivity))]
  exact Int.emod_eq_of_lt h0 (by exact_mod_cast hlt)

theorem decode_encode_lookup {r : Frac} (h : Instr.wfResistance r = true) : decode (encode (.lookup r)) = .ok (.lookup r) := by
  obtain ⟨num, den⟩ := r
  simp only [Instr.wfResistance, Bool.and_eq_true, beq_iff_eq, decide_eq_true_eq] at h
  obtain ⟨⟨rfl, h0⟩, hlt⟩ := h
  simp only [encode, decode, toNat_ofInt_cast h0 hlt]

theorem decode_encode_validate {v : Frac} {n : Nat} (h : Instr.wfCandidate v n = true) :
    decode (encode (.validate v n)) = .ok (.validate v n) := by
  obtain ⟨num, den⟩ := v
  simp only [Instr.wfCandidate, Bool.and_eq_true, beq_iff_eq, decide_eq_true_eq] at h
  obtain ⟨⟨⟨rfl, h0⟩, hlt⟩, hn⟩ := h
  have hlen : (BitVec.ofNat 5 n).toNat = n := Nat.mod_eq_of_lt hn
  simp only [encode, decode, toNat_ofInt_cast h0 hlt, hlen]

theorem decode_encode_parse {pkt : Option (List Byte)} (h : Instr.wfPacket pkt = true) :
    decode (encode (.parse pkt)) = .ok (.parse pkt) := by
  cases pkt with
  | none => cases h
  | some bytes =>
    have hlen : bytes.length ≤ 18 := of_decide_eq_true h
    simp only [encode, decode, Option.getD_some, busPacket_packBytes hlen]

theorem decode_encode_frame (f : FrameArgs) : decode (encode (.frame f)) = .ok (.frame f) := by
  rw [encode, decode, decodeFrame_frameStream]
  rfl

theorem decode_encode_data {b : Byte} (h : Instr.wfData b = true) : decode (encode (.data b)) = .ok (.data b) := by
  have hb : isControl b = false := by simpa [Instr.wfData] using h
  rw [encode, decode, select_normal_data hb]

/-- Settles O29: each kind of operand is read back from its interface. -/
theorem decodeOfEncodeIsIdentity : Obligations.DecodeOfEncodeIsIdentity := by
  intro i h
  cases i with
  | parse pkt => exact decode_encode_parse h
  | lookup r => exact decode_encode_lookup h
  | validate v n => exact decode_encode_validate h
  | frame f => exact decode_encode_frame f
  | data b => exact decode_encode_data h
  | clr | idle | lit _ | esc | sof | eof => rfl

end Sys2Proof

/-! PROOFS. The range checks and scales of PARSE in exact numbers and in raw counts (spec/41_packet_decoder.md R153, R160,
R258; spec/30_encoding.md R89 to R93). -/

namespace Sys2Proof.Machine

open Sys2Proof

/-- 100 degrees is the count 1000000; an unsigned count has no lower bound to miss (R153). -/
theorem tempAdvOf_iff_count (raw : BitVec 32) : tempAdvOf raw = true ↔ 1000000 < raw.toNat := by
  have hvalue : (temperatureOf raw).toRat = (raw.toNat : Rat) / 10000 := rfl
  have hnonneg : (0 : Rat) ≤ (raw.toNat : Rat) / 10000 := by positivity
  have hlow : ¬ (raw.toNat : Rat) / 10000 < -100 := not_lt.mpr (by linarith)
  have hhigh : 100 < (raw.toNat : Rat) / 10000 ↔ 1000000 < raw.toNat := by
    rw [lt_div_iff₀ (by norm_num), ← Nat.cast_lt (α := Rat)]
    norm_num
  rw [tempAdvOf_iff, hvalue, hhigh]
  simp [hlow]

/-- The advisory flag of the battery is VALIDATE's range the other way round (R160, R200). -/
theorem battAdvOf_eq_not_valid (raw : BitVec 16) : battAdvOf raw = !valid (voltageOf raw) 18 := by
  rw [Bool.eq_iff_iff, battAdvOf_iff, Bool.not_eq_true', ← Bool.not_eq_true, valid_iff (voltageOf_den_ne_zero raw), not_and_or,
    not_and_or, not_le, not_le]
  simp

theorem battAdvOf_iff_count (raw : BitVec 16) : battAdvOf raw = true ↔ 10000 < raw.toNat := by
  rw [battAdvOf_eq_not_valid, Bool.not_eq_true', ← Bool.not_eq_true, valid_voltageOf_iff, not_le]

/-- Settles O11: the flags on the exact value and on its count. -/
theorem advisoryFlagsAreRangeChecks : Obligations.AdvisoryFlagsAreRangeChecks :=
  ⟨fun v => ⟨tempAdvOf_iff v, tempAdvOf_iff_count v⟩, fun v => ⟨battAdvOf_iff v, battAdvOf_iff_count v⟩⟩

theorem resistanceOf_den_ne_zero (raw : BitVec 16) : (resistanceOf raw).den ≠ 0 := by simp [resistanceOf, Config.rtdDen]

theorem resistanceOf_toRat (raw : BitVec 16) : (resistanceOf raw).toRat = (raw.toNat : Rat) * 400 / 32768 := by
  simp [Frac.toRat, resistanceOf, Config.rtdNum, Config.rtdDen]

/-- `res_q` over 2048 is the resistance: 25 / 2048 is 400 / 32768 (R91). -/
theorem resQOf_div (raw : BitVec 16) : ((resQOf raw).toNat : Rat) / 2048 = (raw.toNat : Rat) * 400 / 32768 := by
  rw [resQOf_toNat]
  push_cast
  ring

/-- Settles O12: each value is its count over its divisor. -/
theorem engineeringValuesAreExact : Obligations.EngineeringValuesAreExact :=
  ⟨fun _ => ⟨rfl, rfl, by simp [Reading.thermocouple, Frac.toRat], rfl⟩,
    fun raw => ⟨resistanceOf_toRat raw, resQOf_div raw⟩⟩

/-- Settles O15: an empty ROM fails every lookup, and the length is tested before anything else. -/
theorem firstErrorInStepOrder : Obligations.FirstErrorInStepOrder := by
  refine fun bytes => ⟨fun h hbatt => ⟨tempAdvOf (tempRawOf bytes), ?_⟩, fun hne rom => ?_⟩
  · have hcount : 10000 < (battRawOf bytes).toNat := by rw [battRawOf_toNat]; exact hbatt
    have hadv : battAdvOf (battRawOf bytes) = true := (battAdvOf_iff_count _).mpr hcount
    rw [parse_out_of_length [] h, verdictOf_invalid [] ((battAdvOf_iff _).mp hadv), advOf, hadv]
    rfl
  · rw [parse_of_not_length rom (by rintro _ ⟨⟩; exact hne)]
    rfl

/-! ### VALIDATE and LOOKUP of any operand (R182, R184, R186, R200) -/

/-- Settles O21: VALIDATE's answer on a number, and on a pair that stands for none. -/
theorem validateIsTheClosedRange : Obligations.ValidateIsTheClosedRange := by
  refine fun v n s => ⟨_, valid v n, rfl, onlySignals_present s _, rfl, fun hv => valid_iff hv n, fun hv => ?_⟩
  simp [valid, Frac.isNumber, hv]

/-- LOOKUP of a bad operand, or on an empty ROM, finds nothing. -/
theorem lookup_eq_invalidInput {rom : List RomWord} {r : Frac} (h : r.den = 0 ∨ r.num < 0 ∨ rom = []) :
    lookup rom r = .invalidInput := by
  obtain ⟨e, -⟩ | ⟨w, ws, rfl, hnum, h0, -⟩ := lookup_cases rom r
  · exact e
  · obtain hden | hneg | hrom := h
    · simp [Frac.isNumber, hden] at hnum
    · omega
    · cases hrom

theorem num_neg_of_toRat_neg {r : Frac} (h : r.toRat < 0) : r.num < 0 := by
  by_contra hnum
  have h0 : (0 : Rat) ≤ r.num := by exact_mod_cast not_lt.mp hnum
  exact absurd h (not_lt.mpr (div_nonneg h0 (Nat.cast_nonneg r.den)))

/-- Settles O18: a negative operand has a negative numerator. -/
theorem lookupFailsOnBadOperandOrEmptyRom : Obligations.LookupFailsOnBadOperandOrEmptyRom := by
  intro r s h
  have hbad : r.den = 0 ∨ r.num < 0 ∨ s.rom = [] := h.imp_right (Or.imp_left num_neg_of_toRat_neg)
  exact ⟨_, rfl, onlySignals_present s _, by rw [State.present_sig, lookup_eq_invalidInput hbad]⟩

/-- What LOOKUP finds is an index of the ROM, less 200 (R184). -/
theorem lookup_ok_range {rom : List RomWord} {r : Frac} {t : Int} (h : lookup rom r = .ok t) :
    -200 ≤ t ∧ t ≤ (rom.length : Int) - 201 := by
  obtain ⟨e, -⟩ | ⟨w, ws, rfl, -, -, e⟩ := lookup_cases rom r
  · cases h.symm.trans e
  · cases h.symm.trans e
    have hindex := scan_range r ws 1 0 (distance r w)
    simp only [List.length_cons, Config.tOffset]
    omega

/-- The operand PARSE gives LOOKUP is a number at or above 0, so that only an empty ROM fails it (R191). -/
theorem lookup_resistanceOf_eq_invalidInput_iff (rom : List RomWord) (raw : BitVec 16) :
    lookup rom (resistanceOf raw) = .invalidInput ↔ rom = [] := by
  refine ⟨fun h => ?_, fun h => lookup_eq_invalidInput (.inr (.inr h))⟩
  by_contra hrom
  have h0 : 0 ≤ (resistanceOf raw).num := Int.natCast_nonneg _
  obtain ⟨i, e, -⟩ := lookup_eq_lowestNearest (resistanceOf_den_ne_zero raw) h0 hrom
  cases h.symm.trans e

/-- Settles O19: the one way to fail, and the range of an index. -/
theorem pipelineLookupRange : Obligations.PipelineLookupRange :=
  fun rom raw => ⟨lookup_resistanceOf_eq_invalidInput_iff rom raw, fun _ h => lookup_ok_range h⟩

/-- The distance the model scans by is 256 times R186's integer distance. -/
theorem distance_resistanceOf (raw : BitVec 16) (w : RomWord) :
    distance (resistanceOf raw) w = 256 * ((128 * w.toNat : Int) - 625 * (25 * raw.toNat : Int)).natAbs := by
  have hscale : (w.toNat : Int) * (32768 : Nat) - (10000 : Nat) * (raw.toNat * (400 : Nat) : Int) =
      256 * ((128 * w.toNat : Int) - 625 * (25 * raw.toNat : Int)) := by push_cast; ring
  rw [distance, resistanceOf, Config.rtdNum, Config.rtdDen, Config.romDiv]
  exact (congrArg Int.natAbs hscale).trans (Int.natAbs_mul 256 _)

/-- Settles O20: R186's distance is the model's over 256, so it has the exact distance's scale over 256 and the scan's order. -/
theorem integerDistanceIsExact : Obligations.IntegerDistanceIsExact := by
  intro raw w d
  have hd : ∀ w, distance (resistanceOf raw) w = 256 * d w := distance_resistanceOf raw
  refine ⟨?_, ?_, fun w' => ?_⟩
  · have hexact := distance_eq_mul_abs (resistanceOf_den_ne_zero raw) w
    have hden : (resistanceOf raw).den = 32768 := rfl
    rw [hd, hden] at hexact
    push_cast at hexact
    linarith
  · have hw := w.isLt
    have hraw := raw.isLt
    show ((128 * w.toNat : Int) - 625 * (25 * raw.toNat : Int)).natAbs < 2 ^ 31
    omega
  · rw [hd, hd, Nat.mul_lt_mul_left (by decide)]

end Sys2Proof.Machine

/-! PROOFS. The invariant of a run (spec/10_state.md R32): a step keeps `len` in range and the ROM as it is, and the one output
that carries data is PARSE's answer on 18 bytes, which is sound for any ROM of a legal size. -/

namespace Sys2Proof.Machine

open Sys2Proof Sys2Proof.Safety

section Output

variable {rom : List RomWord}

/-- With a ROM of a legal size the RTD temperature, or its sentinel 0, fits its 16-bit port (R158, R226). -/
theorem rtdTemperatureOf_lookup_range (hrom : rom.length ≤ 32768) (r : Frac) :
    -200 ≤ rtdTemperatureOf (lookup rom r) ∧ rtdTemperatureOf (lookup rom r) ≤ 32567 := by
  cases h : lookup rom r with
  | invalidInput => simp [rtdTemperatureOf]
  | ok t =>
    obtain ⟨hlow, hhigh⟩ := lookup_ok_range h
    exact ⟨hlow, show t ≤ 32567 by omega⟩

/-- PARSE of 18 bytes answers a reading that is their decode, with a battery count in range, or InvalidSensorData with
`batt_adv`: VALIDATE's verdict decides between the two, and `batt_adv` is its negation. -/
theorem outputSound_parse (hrom : rom.length ≤ 32768) {bytes : List Byte} (h : bytes.length = 18) :
    OutputSound rom (parse rom (some bytes)).out := by
  have hadv : (advOf rom bytes).battAdv = !valid (voltageOf (battRawOf bytes)) 18 := battAdvOf_eq_not_valid _
  rw [parse_out_of_length rom h, verdictOf]
  split
  next hvalid =>
    exact ⟨h, rfl, (valid_voltageOf_iff _).mp hvalid, by simp [hadv, hvalid], rtdTemperatureOf_lookup_range hrom _⟩
  next hinvalid =>
    exact ⟨rfl, by simpa [hadv] using hinvalid⟩

end Output

/-- What a STEP puts out is sound: a Result comes from a hand-over alone. -/
theorem stepEvent_outputSound {ev : Event} {s t : State} (hrom : RomLegal s) (h : stepEvent ev s = .next t) :
    OutputSound s.rom t.sig.out := by
  obtain ⟨ho, -⟩ | ⟨-, rfl, he, h18⟩ | ⟨ho, -⟩ := stepEvent_out_cases h
  · rw [ho]; trivial
  · rw [stepEvent_handOver he h18] at h
    cases h
    exact outputSound_parse hrom s.packet_length
  · rw [ho]; trivial

/-- Settles O40: `len`, the ROM and the output each keep their part of the invariant. -/
theorem stepKeepsTheInvariant : Obligations.StepKeepsTheInvariant := by
  rintro s t ⟨hlen, hrom, -⟩ h
  have hkeep : t.rom = s.rom := step_rom h
  rw [step_eq_stepEvent hlen] at h
  refine ⟨stepEvent_len_le (s := s.edge) hlen h, ?_, ?_⟩
  · rwa [RomLegal, hkeep]
  · rw [hkeep]
    exact stepEvent_outputSound (s := s.edge) hrom h

/-- Settles O41: the ROM parameters allow at most 32768 words, and reset presents nothing. -/
theorem resetHasTheInvariant : Obligations.ResetHasTheInvariant := by
  refine ⟨by decide, ?_, trivial⟩
  have hcal := Config.nCal.isLt
  simp only [RomLegal, State.reset_rom, Config.romImage, List.length_map, List.length_range]
  omega

end Sys2Proof.Machine

/-! PROOFS. The edge and the step (spec/45_pipeline.md R220 to R223, R227): the event of an edge by its sample, the completing
mark, and the step as the operation that the event selects. -/

namespace Sys2Proof.Machine

open Sys2Proof

/-- Settles O37: no operation reads the signals of the one before it. -/
theorem nothingPresentedIsHeld : Obligations.NothingPresentedIsHeld := fun i s sg => exec_present s sg i

/-! ### The event of an edge (R222) -/

section Event

variable (p : InPorts) (ready : Bool)

theorem resetRequest_iff : resetRequest p = true ↔ p.rst = true ∨ p.clr = true := Bool.or_eq_true_iff

theorem resetRequest_eq_false_iff : resetRequest p = false ↔ p.rst = false ∧ p.clr = false := Bool.or_eq_false_iff

/-- The three events by the sample and `in_ready`. -/
theorem formEvent_cases : (resetRequest p = true ∧ formEvent p ready = .clr) ∨
    (resetRequest p = false ∧ p.inValid = true ∧ ready = true ∧ formEvent p ready = .byte p.inByte) ∨
    (resetRequest p = false ∧ (p.inValid = false ∨ ready = false) ∧ formEvent p ready = .idle) := by
  rw [formEvent]
  split
  next hreq => exact .inl ⟨hreq, rfl⟩
  next hreq =>
    rw [Bool.not_eq_true] at hreq
    split
    next hbyte =>
      obtain ⟨hvalid, hready⟩ := Bool.and_eq_true_iff.mp hbyte
      exact .inr (.inl ⟨hreq, hvalid, hready, rfl⟩)
    next hbyte =>
      rw [Bool.not_eq_true] at hbyte
      exact .inr (.inr ⟨hreq, Bool.and_eq_false_iff.mp hbyte, rfl⟩)

theorem formEvent_eq_clr_iff : formEvent p ready = .clr ↔ resetRequest p = true := by
  obtain ⟨hreq, e⟩ | ⟨hreq, -, -, e⟩ | ⟨hreq, -, e⟩ := formEvent_cases p ready <;> simp [hreq, e]

theorem formEvent_eq_byte_iff (b : Byte) : formEvent p ready = .byte b ↔
    resetRequest p = false ∧ p.inValid = true ∧ ready = true ∧ p.inByte = b := by
  obtain ⟨hreq, e⟩ | ⟨hreq, hvalid, hready, e⟩ | ⟨-, hno, e⟩ := formEvent_cases p ready
  · simp [hreq, e]
  · rw [e]
    simp [hreq, hvalid, hready]
  · rw [e]
    obtain hno | hno := hno <;> simp [hno]

theorem formEvent_eq_idle_iff : formEvent p ready = .idle ↔
    resetRequest p = false ∧ (p.inValid = false ∨ ready = false) := by
  obtain ⟨hreq, e⟩ | ⟨-, hvalid, hready, e⟩ | ⟨hreq, hno, e⟩ := formEvent_cases p ready
  · simp [hreq, e]
  · rw [e]
    simp [hvalid, hready]
  · simp [hreq, e, hno]

end Event

section Edge

variable (s : State) (p : InPorts)

theorem inReady_eq_false_of_resetRequest (h : resetRequest p = true) : inReady s p = false := by simp [inReady, h]

/-- Without a reset request `in_ready` is 0 only for a parse that is completing. -/
theorem inReady_eq_false_iff (h : resetRequest p = false) : inReady s p = false ↔ s.completing = true ∧ p.stall = true := by
  simp [inReady, h, stalled]

/-- The edge keeps the completing mark at a stalled edge without a reset request (R222). -/
theorem State.edge_completing_iff :
    s.edge.completing = true ↔ s.completing = true ∧ s.sample.stall = true ∧ s.event ≠ .clr := by
  rw [State.edge_completing, State.event, ne_eq, formEvent_eq_clr_iff]
  simp [stalled, and_assoc]

end Edge

/-- No operation but a hand-over touches the completing mark. -/
theorem exec_completing {i : Instr} {s t : State} (h : exec i s = .next t) (hne : ¬ (i = .eof ∧ s.len = 18#5)) :
    t.completing = s.completing := by
  cases i with
  | eof =>
    rw [exec_eof_discard fun hl => hne ⟨rfl, hl⟩] at h
    cases h; rfl
  | data b => cases h; exact s.append_completing b
  | lit b => cases h; exact s.append_completing b
  | clr | idle | esc | sof | parse _ | lookup _ | validate _ _ | frame _ => cases h; rfl

/-- Settles O26: the events by `formEvent`'s three cases, the mark by the operation and by the edge. -/
theorem eventFormation : Obligations.EventFormation := by
  refine ⟨fun s t h hl => ?_, fun _ _ _ h hne => exec_completing h hne, State.edge_completing_iff,
    fun s p rest hq => by simp [State.sample, hq], fun s hq => ?_, fun s => ?_⟩
  · rw [exec_eof_handOver hl] at h
    cases h; rfl
  · have hsilent : s.sample = silentPorts := by simp [State.sample, hq]
    rw [State.event, hsilent]
    exact formEvent_noByte _ rfl rfl rfl
  · intro p ready
    refine ⟨?_, fun h => inReady_eq_false_of_resetRequest s p ((resetRequest_iff p).mpr h), fun hr hc => ?_, fun b => ?_, ?_⟩
    · rw [← resetRequest_iff]
      exact formEvent_eq_clr_iff p ready
    · exact inReady_eq_false_iff s p ((resetRequest_eq_false_iff p).mpr ⟨hr, hc⟩)
    · rw [← and_assoc, ← resetRequest_eq_false_iff]
      exact formEvent_eq_byte_iff p ready b
    · rw [← and_assoc, ← resetRequest_eq_false_iff]
      exact formEvent_eq_idle_iff p ready

/-! ### The step (R220, R291) -/

/-- With `len` in range a step is the selected operation in the state after the edge. -/
theorem step_eq_exec {s : State} (hl : s.len.toNat ≤ 19) : step s = exec (select s.esc s.event) s.edge :=
  step_eq_stepEvent hl

/-- Settles O31: the operation decoded at the boundary is the one selected. -/
theorem stepRunsTheDecodedOperation : Obligations.StepRunsTheDecodedOperation := by
  intro s i hl hdec
  cases hdec
  exact ⟨step_eq_exec hl, rfl, rfl, fun _ => rfl, rfl, rfl, rfl, rfl⟩

/-- Settles O32: STEP on any event has a next state. -/
theorem everyStepCompletes : Obligations.EveryStepCompletes := by
  intro s hl
  rw [step_eq_stepEvent hl]
  exact stepEvent_next s.event s.edge

/-- Settles O33: the step is defined there for Clr alone, which selects CLR whatever `esc` is. -/
theorem onlyResetLeavesAnUndefinedState : Obligations.OnlyResetLeavesAnUndefinedState := by
  refine fun s hl => ⟨fun hne => if_neg ?_, fun hclr => ⟨((s.edge.setEsc false).setLen 0#5).quiet, ?_, rfl, rfl⟩⟩
  · rw [s.defined_iff]
    exact not_or.mpr ⟨not_le.mpr hl, hne⟩
  · rw [step, if_pos (s.defined_iff.mpr (.inr hclr)), hclr]
    rfl

/-! ### Table words (notes/assumptions/10.md) -/

/-- A table word's event is what its ports form at an edge at which no parse stalls. -/
theorem wordEvent_eq_formEvent (w : Nat) : wordEvent w = formEvent (wordPorts w) true := by
  rw [wordEvent, formEvent, resetRequest, wordPorts]
  cases w.testBit 9 <;> rfl

/-- A table word's ports never stall, so only a reset request can take `in_ready` to 0. -/
theorem formEvent_wordPorts (s : State) (w : Nat) : formEvent (wordPorts w) (inReady s (wordPorts w)) = wordEvent w := by
  have hstall : stalled s (wordPorts w) = false := by simp [stalled, wordPorts]
  rw [wordEvent_eq_formEvent, inReady, hstall]
  cases hreq : resetRequest (wordPorts w) with
  | true => simp [formEvent, hreq]
  | false => rfl

section TableWord

variable (s : State) (nbits w : Nat)

theorem State.withFetchWord_inq : (s.withFetchWord nbits w).inq = wordPorts w :: s.inq := by
  simp only [State.withFetchWord]
  split <;> rfl

theorem State.withFetchWord_len : (s.withFetchWord nbits w).len = s.len := by
  simp only [State.withFetchWord]
  split <;> rfl

theorem State.withFetchWord_event : (s.withFetchWord nbits w).event = wordEvent w := by
  have hsample : (s.withFetchWord nbits w).sample = wordPorts w := by simp [State.sample, State.withFetchWord_inq]
  rw [State.event, hsample, formEvent_wordPorts]

/-- The placed word selects as its own bits do: `esc` is set from the word where a byte is presented, and no other event
reads it. -/
theorem State.withFetchWord_select :
    select (s.withFetchWord nbits w).esc (wordEvent w) = select (wordEsc w) (wordEvent w) := by
  cases hev : wordEvent w with
  | byte b => simp [State.withFetchWord, hev]
  | idle => rfl
  | clr => rfl

end TableWord

theorem decodeTableWord_eq_some {i : Instr} {nbits w : Nat} (h : decodeTableWord nbits w = some i) :
    i = select (wordEsc w) (wordEvent w) := by
  rw [decodeTableWord] at h
  split at h
  · cases h
  · exact (Option.some.inj h).symm

/-- Settles O28: the placed word is the event of the edge, and selects what the decoder reads from it. -/
theorem placedWordIsRun : Obligations.PlacedWordIsRun := by
  intro s nbits w i hl hdec
  have hlen : (s.withFetchWord nbits w).len.toNat ≤ 19 := by rwa [State.withFetchWord_len]
  rw [step_eq_exec hlen, State.withFetchWord_event, State.withFetchWord_select, decodeTableWord_eq_some hdec]

/-- Settles O27: each word is decoded. -/
theorem tableWordsDecode : Obligations.TableWordsDecode := by
  refine ⟨?_, ?_, ?_, ?_, rfl, rfl, rfl, rfl, rfl, rfl⟩ <;> decide

end Sys2Proof.Machine

/-! PROOFS. The two storage spaces and the stream of a FRAME: APPEND's offset (spec/40_framer.md R127), a ROM entry
(spec/20_memory.md R51), and what a FRAME puts at the input (spec/30_encoding.md R87, R102). -/

namespace Sys2Proof.Machine

open Sys2Proof

theorem State.appendIndex_eq_some_iff (s : State) (k : Fin 18) : s.appendIndex = some k ↔ s.len.toNat = k.val := by
  have hk := k.isLt
  by_cases h : s.len.toNat < 18
  · simp [State.appendIndex, h, Fin.ext_iff]
  · simp only [State.appendIndex, dif_neg h, reduceCtorEq, false_iff]
    omega

theorem State.appendIndex_eq_none_iff (s : State) : s.appendIndex = none ↔ 18 ≤ s.len.toNat := by
  simp [State.appendIndex]

/-- Settles O8: APPEND's offset by `len`. -/
theorem appendOffsetIsLen : Obligations.AppendOffsetIsLen :=
  fun s => ⟨s.appendIndex_eq_some_iff, s.appendIndex_eq_none_iff⟩

theorem ohms_toRat (w : RomWord) : (ohms w).toRat = (w.toNat : Rat) / 10000 := rfl

/-- A 24-bit word over 10000. -/
theorem ohms_range (w : RomWord) : 0 ≤ (ohms w).toRat ∧ (ohms w).toRat ≤ 16777215 / 10000 := by
  have hw : (w.toNat : Rat) ≤ 16777215 := by
    have := w.isLt
    exact_mod_cast show w.toNat ≤ 16777215 by omega
  rw [ohms_toRat]
  exact ⟨by positivity, by linarith⟩

/-- Settles O25: an entry is a word of the list, in ohms. -/
theorem romEntriesAreWordsOverTenThousand : Obligations.RomEntriesAreWordsOverTenThousand := by
  refine fun s i => ⟨by simp [State.readRom], fun c hc => ?_⟩
  obtain ⟨w, hw, rfl⟩ := Option.map_eq_some_iff.mp hc
  exact ⟨⟨w, hw, ohms_toRat w⟩, ohms_range w⟩

/-- Settles O9: `Encode` lists the bytes of R102, and FRAME puts the stuffed stream before what waits. -/
theorem frameExpandsToItsStream : Obligations.FrameExpandsToItsStream :=
  fun _ _ => ⟨_, rfl, rfl, rfl, rfl, fun _ => rfl, rfl, rfl, rfl, rfl⟩

theorem stuff_length (b : Byte) : (stuff b).length = if isControl b then 2 else 1 := by
  rw [stuff]
  split <;> rfl

/-- `Stuff` adds one byte for each control code. -/
theorem stuffAll_length (bytes : List Byte) : (stuffAll bytes).length = bytes.length + (bytes.filter isControl).length := by
  induction bytes with
  | nil => rfl
  | cons b bytes ih =>
    rw [stuffAll, List.length_append, ih, stuff_length, List.length_cons]
    cases hb : isControl b with
    | true =>
      rw [List.filter_cons_of_pos hb, List.length_cons, if_pos rfl]
      omega
    | false =>
      rw [List.filter_cons_of_neg (Bool.not_eq_true _ ▸ hb), if_neg Bool.false_ne_true]
      omega

/-- Settles O30: 18 data bytes of which any number can be control codes, between two bytes. -/
theorem frameStreamLength : Obligations.FrameStreamLength := by
  intro f
  have hlen : (frameStream f).length = 20 + ((encodePacket f).filter isControl).length := by
    simp only [frameStream, List.length_cons, List.length_append, List.length_nil, stuffAll_length, encodePacket_length]
    omega
  have hle : ((encodePacket f).filter isControl).length ≤ 18 := List.length_filter_le ..
  exact ⟨hlen, by omega, by omega⟩

end Sys2Proof.Machine

/-! PROOFS. Runs of the machine (spec/45_pipeline.md R220, R222): any number of steps is the fold of STEP over the events the
edges form, and what a run shows is indexed by these events. -/

namespace Sys2Proof.Machine

open Sys2Proof Sys2Proof.Safety

/-- The run and the fold side by side, from states with the same block: the outputs of the steps are the fold's, the ends have
the same block, and every step took one sample and formed one event. -/
theorem run_feed (n : Nat) {s v : State} (hl : s.len.toNat ≤ 19) (hb : SameBlock s v) :
    ∃ t u, feed (events n s) v = some (t, outputs n s) ∧ Sys2Proof.core.run n s = .next u ∧ SameBlock u t ∧
      (events n s).length = n ∧ u.inq = s.inq.drop n := by
  induction n generalizing s v with
  | zero => exact ⟨v, s, rfl, rfl, hb, rfl, rfl⟩
  | succ n ih =>
    obtain ⟨s', v', hs', hv', hrel, hq', hl'⟩ := step_sameBlock hl hb
    obtain ⟨t, u, hfeed, hrun, hend, hlen, hq⟩ := ih hl' hrel
    obtain ⟨-, -, -, -, hsig⟩ := hrel
    refine ⟨t, u, ?_, ?_, hend, ?_, ?_⟩
    · simp [events_succ hs', outputs_succ hs', feed_cons hv', hfeed, hsig]
    · rw [run_succ hs', hrun]
    · rw [events_succ hs', List.length_cons, hlen]
    · rw [hq, hq', List.drop_tail]

/-- Settles O53: the run and the fold from the same state. -/
theorem runIsTheFoldOfStep : Obligations.RunIsTheFoldOfStep :=
  fun n s hl => run_feed n hl (sameBlock_refl s)

/-- Settles O46: the events of waiting bytes are those bytes, and the fold does not read the queue. -/
theorem queuedBytesAreFed : Obligations.QueuedBytesAreFed := by
  intro bytes s hl s'
  obtain ⟨t, u, hfeed, hrun, hend, -, hq⟩ := run_feed bytes.length (s := s') (v := s) hl (sameBlock_refl s)
  rw [events_of_bytes bytes (s := s') hl rfl] at hfeed
  refine ⟨t, u, hfeed, hrun, hend, ?_⟩
  rw [hq, List.drop_left' (List.length_map ..)]

/-! ### What is observed (R220) -/

section Observed

variable {s t : State} (n k : Nat) (o : OutEvent)

/-- The step from the state a run reaches after `k` steps is the run's step `k`: it forms event `k` and presents `o`. -/
def StepAt (s : State) (n k : Nat) (o : OutEvent) : Prop :=
  ∃ u t, Sys2Proof.core.run k s = .next u ∧ step u = .next t ∧ t.sig.out = o ∧ (events n s)[k]? = some u.event

theorem stepAt_zero (h : step s = .next t) : StepAt s (n + 1) 0 o ↔ t.sig.out = o := by
  constructor
  · rintro ⟨u, t', hu, ht', ho, -⟩
    cases hu
    cases h.symm.trans ht'
    exact ho
  · exact fun ho => ⟨s, t, rfl, h, ho, by rw [events_succ h]; rfl⟩

theorem stepAt_succ (h : step s = .next t) : StepAt s (n + 1) (k + 1) o ↔ StepAt t n k o := by
  simp only [StepAt, run_succ h, events_succ h, List.getElem?_cons_succ]

/-- No event is formed where the first step is refused. -/
theorem not_stepAt_of_refused {r : Refusal} (h : step s = .refused r) : ¬ StepAt s n k o := by
  have hevents : events n s = [] := by cases n <;> simp [events, h]
  rintro ⟨u, t, -, -, -, hev⟩
  simp [hevents] at hev

end Observed

/-- Output `k` of a run is what its step `k` presents. -/
theorem outputs_getElem?_eq_some_iff (n : Nat) (s : State) (k : Nat) (o : OutEvent) :
    (outputs n s)[k]? = some o ↔ k < n ∧ StepAt s n k o := by
  induction n generalizing s k with
  | zero => simp
  | succ n ih =>
    cases h : step s with
    | next t =>
      rw [outputs_succ h]
      cases k with
      | zero => simp [stepAt_zero n o h]
      | succ k => rw [List.getElem?_cons_succ, ih, stepAt_succ n k o h, Nat.add_lt_add_iff_right]
    | fault r => exact nomatch r
    | refused r =>
      have houtputs : outputs (n + 1) s = [] := by simp [outputs, h]
      simp [houtputs, not_stepAt_of_refused (n + 1) k o h]

/-- Settles O49: the observable outputs are those of the steps, other than None, with their places. -/
theorem observableOutputsAreIndexed : Obligations.ObservableOutputsAreIndexed := by
  intro n s k o
  rw [mem_observable, outputs_getElem?_eq_some_iff, and_assoc, and_comm (b := o ≠ .nothing)]
  rfl

end Sys2Proof.Machine

/-! PROOFS. Data bytes under STEP (spec/30_encoding.md R86, R101; spec/40_framer.md R130): `Stuff` of a byte is APPEND of it, and
bytes that are no control codes need no stuffing. -/

namespace Sys2Proof.Machine

open Sys2Proof

section Append

variable (s : State)

@[simp] theorem State.append_quiet (b : Byte) : s.quiet.append b = (s.append b).quiet := s.append_present Signals.quiet b

@[simp] theorem State.append_setEsc (v : Bool) (b : Byte) : (s.setEsc v).append b = (s.append b).setEsc v := by
  have hi : (s.setEsc v).appendIndex = s.appendIndex := rfl
  rw [State.append, State.append, hi]
  cases s.appendIndex with
  | some k => rfl
  | none => rfl

@[simp] theorem Signals.quiet_out : Signals.quiet.out = .nothing := rfl

/-- From Normal, `Stuff` of a byte does what DATA does with a byte that is no control code (R86, R101). -/
theorem feed_stuff (b : Byte) (he : s.esc = false) : feed (byteEvents (stuff b)) s =
    some ((s.append b).quiet, List.replicate (stuff b).length .nothing) := by
  cases hb : isControl b with
  | false => simp [stuff, hb, byteEvents, feed_cons (stepEvent_data b he hb)]
  | true =>
    have hlit := stepEvent_lit (s := (s.setEsc true).quiet) b rfl
    have hend : (((s.setEsc true).quiet.append b).setEsc false).quiet = (s.append b).quiet := by
      calc (((s.setEsc true).quiet.append b).setEsc false).quiet
        _ = ((s.append b).setEsc false).quiet := by rw [State.append_quiet, State.append_setEsc]; rfl
        _ = (s.append b).quiet := by rw [State.setEsc, ← he, ← s.append_esc b]
    rw [hend] at hlit
    simp [stuff, hb, byteEvents, Config.escCode, feed_cons (stepEvent_esc he), feed_cons hlit, List.replicate_succ]

/-- APPEND of one byte after another, nothing presented. -/
def State.appendAll : List Byte → State → State
  | [], s => s
  | b :: bytes, s => appendAll bytes (s.append b).quiet

theorem State.appendAll_esc (bytes : List Byte) : (s.appendAll bytes).esc = s.esc := by
  induction bytes generalizing s with
  | nil => rfl
  | cons b bytes ih => rw [State.appendAll, ih, State.quiet_esc, State.append_esc]

theorem State.appendAll_rom (bytes : List Byte) : (s.appendAll bytes).rom = s.rom := by
  induction bytes generalizing s with
  | nil => rfl
  | cons b bytes ih => rw [State.appendAll, ih, State.quiet_rom, State.append_rom]

/-- APPEND counts, saturating at 19 (R21, R127). -/
theorem State.append_len_toNat (b : Byte) : (s.append b).len.toNat = min (s.len.toNat + 1) 19 := by
  obtain ⟨k, -, hk, e⟩ | ⟨-, hlen, e⟩ := s.append_cases b
  · rw [e, State.setLen_len, s.len_succ_toNat (by omega)]
    omega
  · rw [e, State.setLen_len, BitVec.toNat_ofNat]
    omega

theorem State.appendAll_len_toNat (bytes : List Byte) (hl : s.len.toNat ≤ 19) :
    (s.appendAll bytes).len.toNat = min (s.len.toNat + bytes.length) 19 := by
  induction bytes generalizing s with
  | nil => exact (Nat.min_eq_left hl).symm
  | cons b bytes ih =>
    rw [State.appendAll, ih (s.append b).quiet (s.append_len_le b), State.quiet_len, State.append_len_toNat, List.length_cons]
    omega

/-- APPEND stores at offset `len`, and nowhere else. -/
theorem State.append_readBuf (b : Byte) (k : Fin 18) :
    (s.append b).readBuf k = if k.val = s.len.toNat then b else s.readBuf k := by
  obtain ⟨i, hi, hlen, e⟩ | ⟨hn, hlen, e⟩ := s.append_cases b
  · simp only [e, State.setLen_readBuf, State.writeBuf_readBuf, hlen, Fin.ext_iff]
  · rw [e, State.setLen_readBuf, if_neg (by omega)]

/-- Each byte that found room stands at its offset. -/
theorem State.appendAll_readBuf (bytes : List Byte) (k : Fin 18) : (s.appendAll bytes).readBuf k =
    if s.len.toNat ≤ k.val then (bytes[k.val - s.len.toNat]?).getD (s.readBuf k) else s.readBuf k := by
  induction bytes generalizing s with
  | nil => simp [State.appendAll]
  | cons b bytes ih =>
    have hk := k.isLt
    rw [State.appendAll, ih, State.quiet_len, State.append_len_toNat, State.quiet_readBuf, State.append_readBuf]
    obtain hlt | heq | hgt := Nat.lt_trichotomy k.val s.len.toNat
    · have h1 : ¬ min (s.len.toNat + 1) 19 ≤ k.val := by omega
      have h2 : ¬ s.len.toNat ≤ k.val := by omega
      simp only [h1, h2, hlt.ne, if_false]
    · have h1 : ¬ min (s.len.toNat + 1) 19 ≤ k.val := by omega
      rw [if_neg h1, if_pos heq, if_pos heq.ge, heq, Nat.sub_self]
      rfl
    · have h1 : min (s.len.toNat + 1) 19 ≤ k.val := by omega
      have hidx : k.val - s.len.toNat = k.val - min (s.len.toNat + 1) 19 + 1 := by omega
      simp only [h1, hgt.le, hgt.ne', if_true, if_false, hidx, List.getElem?_cons_succ]

/-- From Normal, `Stuff` of a byte sequence is APPEND of its bytes. -/
theorem feed_stuffAll (bytes : List Byte) (he : s.esc = false) : feed (byteEvents (stuffAll bytes)) s =
    some (s.appendAll bytes, List.replicate (stuffAll bytes).length .nothing) := by
  induction bytes generalizing s with
  | nil => rfl
  | cons b bytes ih =>
    have hsplit : byteEvents (stuffAll (b :: bytes)) = byteEvents (stuff b) ++ byteEvents (stuffAll bytes) := List.map_append
    have hrest := ih (s.append b).quiet ((s.append_esc b).trans he)
    rw [hsplit, feed_append, feed_stuff s b he, Option.bind_some, hrest, stuffAll, List.length_append,
      ← List.replicate_append_replicate]
    rfl

end Append

/-- Settles O47: the fold over the stuffed bytes is APPEND of them. -/
theorem stuffedBytesAreAppended : Obligations.StuffedBytesAreAppended :=
  fun bytes s he hl => ⟨_, _, feed_stuffAll s bytes he, fun _ ho => List.eq_of_mem_replicate ho,
    (s.appendAll_esc bytes).trans he, s.appendAll_len_toNat bytes hl, s.appendAll_rom bytes, s.appendAll_readBuf bytes⟩

/-- Bytes that are no control codes are their own `Stuff` (R101). -/
theorem stuffAll_of_noControl {bytes : List Byte} (h : ∀ b ∈ bytes, isControl b = false) : stuffAll bytes = bytes := by
  induction bytes with
  | nil => rfl
  | cons b bytes ih =>
    obtain ⟨hb, hbytes⟩ := List.forall_mem_cons.mp h
    simp [stuffAll, stuff, hb, ih hbytes]

/-- Settles O48: from (0, 0) the hardware answers as a fresh source framer, which collects the bytes and looks at their number
at the frame end. -/
theorem noFrameStartNeeded : Obligations.NoFrameStartNeeded := by
  intro bytes s he hl h
  have habs : Abstracts SourceState.fresh s :=
    ⟨he, by simp [hl, SourceState.fresh], fun k hk => absurd hk (by simp [SourceState.fresh])⟩
  have hsource : sourceFeed s.rom (byteEvents (bytes ++ [0x0A#8])) SourceState.fresh = (SourceState.fresh,
      List.replicate bytes.length .nothing ++ [if bytes.length = 18 then (parse s.rom (some bytes)).out else .discard]) := by
    have hstuff := sourceFeed_stuffAll s.rom bytes [.byte 0x0A#8] []
    rw [stuffAll_of_noControl h] at hstuff
    simpa [byteEvents, sourceFeed, sourceStep_eof, SourceState.fresh] using hstuff
  obtain ⟨t, hfeed, hend⟩ := habs.feed (byteEvents (bytes ++ [0x0A#8]))
  rw [hsource] at hfeed hend
  obtain ⟨hesc, hlen, -⟩ := hend
  exact ⟨t, hfeed, hesc, BitVec.eq_of_toNat_eq hlen⟩

end Sys2Proof.Machine

/-! PROOFS. Data on the ports (spec/45_pipeline.md R225, R226, R232): the fields of a reading on the output ports, and what the
sub-blocks exchange at a hand-over. -/

namespace Sys2Proof.Machine

open Sys2Proof

/-! ### The field ports of a reading (R225, R226) -/

/-- A temperature in the range of its 16-bit port is read off it as a signed number. -/
theorem ofInt_toInt_of_range {t : Int} (hlow : -32768 ≤ t) (hhigh : t < 32768) : (BitVec.ofInt 16 t).toInt = t := by
  rw [BitVec.toInt_ofInt]
  exact Int.bmod_eq_of_le (by omega) (by omega)

/-- Byte `k` of the device id on its port. -/
theorem packBytes_dev_extract (dev : Vector Byte 4) (k : Fin 4) :
    (packBytes 32 dev.toList).extractLsb' (8 * k.val) 8 = dev[k] := by
  rw [packBytes_extract dev.toList (by omega)]
  simp [byteAt]

/-- Settles O51: the ports of a Result with a reading carry its fields, the bytes packed. -/
theorem fieldPortsLoseNothing : Obligations.FieldPortsLoseNothing := by
  intro s r adv h _ hlow hhigh
  rw [State.outPorts_of_result h]
  exact ⟨rfl, rfl, rfl, rfl, ofInt_toInt_of_range hlow hhigh, packBytes_dev_extract r.dev,
    fun k => packBytes_extract r.rawPacket (by omega)⟩

/-! ### The internal interfaces at a hand-over (R232) -/

/-- PARSE of 18 bytes requests one lookup, of its `res_q`, and gets its answer (R157). -/
theorem parse_request (rom : List RomWord) {bytes : List Byte} (h : bytes.length = 18) :
    (parse rom (some bytes)).calReq = some (resQOf (rtdRawOf bytes)) ∧
      (parse rom (some bytes)).calRsp = some (lookupOf rom bytes) := by
  obtain ⟨-, hne⟩ | ⟨_, hb, -, e⟩ := parse_cases rom (some bytes)
  · exact absurd h (hne bytes rfl)
  · cases hb
    rw [e, parseFromLookup]
    split <;> exact ⟨rfl, rfl⟩

/-- The scan reads the operand through the order of distances alone. -/
theorem scan_congr {r r' : Frac} (h : ∀ w w', distance r w < distance r w' ↔ distance r' w < distance r' w')
    (ws : List RomWord) (i best : Nat) (w : RomWord) :
    scan r ws i best (distance r w) = scan r' ws i best (distance r' w) := by
  induction ws generalizing i best w with
  | nil => rfl
  | cons x ws ih =>
    rw [scan, scan]
    by_cases hlt : distance r x < distance r w
    · rw [if_pos hlt, if_pos ((h x w).mp hlt), ih]
    · rw [if_neg hlt, if_neg (mt (h x w).mpr hlt), ih]

theorem num_neg_iff_toRat_neg {r : Frac} (hr : r.den ≠ 0) : r.num < 0 ↔ r.toRat < 0 :=
  ⟨fun h => div_neg_of_neg_of_pos (Int.cast_lt_zero.mpr h) (Frac.den_cast_pos hr), num_neg_of_toRat_neg⟩

/-- LOOKUP reads the number its operand stands for, not the pair. -/
theorem lookup_congr_toRat (rom : List RomWord) {r r' : Frac} (hr : r.den ≠ 0) (hr' : r'.den ≠ 0) (h : r.toRat = r'.toRat) :
    lookup rom r = lookup rom r' := by
  have hnum : r.isNumber = r'.isNumber := (bne_iff_ne.mpr hr).trans (bne_iff_ne.mpr hr').symm
  have hneg : r.num < 0 ↔ r'.num < 0 := by rw [num_neg_iff_toRat_neg hr, num_neg_iff_toRat_neg hr', h]
  have horder : ∀ w w', distance r w < distance r w' ↔ distance r' w < distance r' w' := fun w w' => by
    rw [distance_lt_iff hr, distance_lt_iff hr', h]
  cases rom with
  | nil => rfl
  | cons w ws => simp only [lookup, hnum, hneg, scan_congr horder]

/-- The lookup of `cal_r`, which is `res_q`, is PARSE's lookup (R91, R232). -/
theorem lookup_resQOf (rom : List RomWord) (raw : BitVec 16) :
    lookup rom ⟨(resQOf raw).toNat, 2048⟩ = lookup rom (resistanceOf raw) := by
  refine lookup_congr_toRat rom (show 2048 ≠ 0 by decide) (resistanceOf_den_ne_zero raw) ?_
  rw [resistanceOf_toRat, ← resQOf_div]
  rfl

/-- `cal_err` is 1 exactly with a failed lookup. -/
theorem calErr_eq_one_iff (tick : Nat) (rsp : LookupResult) : (calReply tick rsp).1 = 1#1 ↔ rsp = .invalidInput := by
  cases rsp <;> simp [calReply]

/-- The state after an EOF that hands a packet over. -/
def handedOver (s : State) : State :=
  (s.setLen 0#5).beginParse.present { parse s.rom (some s.packet) with pkt := some (packetPulse s) }

/-- The ports at a hand-over: the pulse with the packet, PARSE's request, and LOOKUP's answer to it. -/
theorem handedOver_busPorts (s : State) : (handedOver s).busPorts =
    { pktValid := true
      pktLen := s.len
      pktBytes := packBytes 144 s.packet
      calReq := true
      calR := resQOf (rtdRawOf s.packet)
      calDone := true
      calErr := (calReply s.tick (lookupOf s.rom s.packet)).1
      calT := (calReply s.tick (lookupOf s.rom s.packet)).2 } := by
  obtain ⟨hreq, hrsp⟩ := parse_request s.rom s.packet_length
  simp [State.busPorts, handedOver, packetPulse, hreq, hrsp]

/-- Settles O52: the bus is the buffer's bytes, the request their RTD count, and the answer LOOKUP's of `cal_r`. -/
theorem internalInterfacesAtHandOver : Obligations.InternalInterfacesAtHandOver := by
  intro s hl
  have hbyte : ∀ k : Fin 18, byteAt s.packet k.val = s.readBuf k := s.packet_getD
  refine ⟨handedOver s, exec_eof_handOver hl, ?_⟩
  rw [handedOver_busPorts]
  refine ⟨rfl, hl, fun k => ?_, rfl, ?_, rfl, ?_, fun v hv => ?_⟩
  · rw [packBytes_extract s.packet (by omega), hbyte]
  · rw [resQOf_toNat, rtdRawOf_toNat, ← hbyte 11, ← hbyte 12]
    rfl
  · rw [calErr_eq_one_iff, lookupOf, lookup_resistanceOf_eq_invalidInput_iff]
  · rw [lookup_resQOf, ← lookupOf] at hv
    rw [hv]
    exact ⟨rfl, rfl⟩

end Sys2Proof.Machine
